-- ==== Sys2Proof/Word.lean ====
section
/-! DEFINITION. The widths of the block's values (spec/00_scope.md R8, R10, R11). `uint(v)` of R11 is `BitVec.toNat v`, `sint(v)` is
`BitVec.toInt v`, `bv_N(k)` is `BitVec.ofInt N k`, `v[i]` is `BitVec.getLsbD v i`, `tdiv` is `Int.tdiv`. -/

namespace Sys2Proof

/-- One bit: a port of width 1, or `v[i]`. R11: "A Boolean used as a bit is 1 for true and 0 for false." -/
abbrev Bit := Bool

/-- A value of `BITS` = 8 bits (R8): an operand, a result, a magnitude, a partial product. Bit 7 is the sign of a signed byte (R10). -/
abbrev Byte := BitVec 8

/-- The 19-bit packing of the inputs, `w[18:0]` (spec/30_encoding.md R43). -/
abbrev RequestWord := BitVec 19

/-- The divider's working register, `WREG_WIDTH` = 15 bits (R8, spec/44_divide.md R77). -/
abbrev WorkReg := BitVec 15

/-- The full product `p16` of spec/43_multiply.md R73. -/
abbrev Product16 := BitVec 16

end Sys2Proof
end

