-- ==== Sys2Proof/Config.lean ====
section
/-! DEFINITION. What is fixed when the block is built (spec/00_scope.md R8), and the one open constant. -/

namespace Sys2Proof

/-- How an operation reports overflow (R8, R15 "Policy"). -/
inductive OvfPolicy
  /-- The source's behaviour: overflow of MUL or DIV is not reported. -/
  | source
  /-- The enhancement: the flag is exact. -/
  | enhanced
deriving DecidableEq, Repr

/-- What `y` shows on division by zero (R8, spec/44_divide.md R85). -/
inductive Div0Mode
  /-- `y` = 0x00. -/
  | zero
  /-- `y` is the value the datapath forms (R84). -/
  | raw
deriving DecidableEq, Repr

/-- The three build-time parameters of R8. "They are not ports and not software-writable registers" (spec/10_state.md R24): no operation
of the model writes one. State carries them, so that every statement about a state is a statement about every build (log 1, DESIGN CHOICE). -/
structure Config where
  /-- `MUL_OVF_POLICY`. -/
  mulOvf : OvfPolicy
  /-- `DIV_OVF_POLICY`. -/
  divOvf : OvfPolicy
  /-- `DIV0_MODE`. -/
  div0 : Div0Mode
deriving DecidableEq, Repr

/-- "the document's defaults" (R8): `SOURCE`, `SOURCE`, `ZERO`. -/
def Config.documentDefaults : Config := { mulOvf := .source, divOvf := .source, div0 := .zero }

/-- `BITS`: operand and result width (R8). -/
def Config.bits : Nat := 8

/-- `WREG_WIDTH` = 2·BITS − 1 (R8). -/
def Config.wregWidth : Nat := 2 * Config.bits - 1

/-- `ITER`: iterations of each bit loop (R8). -/
def Config.iter : Nat := 8

/-- `T_SETTLE`, the input-to-output propagation time: OPEN (R8; spec/92_eei_decisions.md D16: "Any number chosen would be fiction"). It has
no body, so nothing can rest on its value (log 4). -/
opaque Config.tSettle : Nat

end Sys2Proof
end

