-- ==== Sys2Proof/Machine/Flags.lean ====
section
/-! DEFINITION. The sign rules of the additive family, the overflow rules of the multiplicative family, and the division-by-zero status
(spec/45_output_mux.md R90, R91). Each operation has its own rule. -/

namespace Sys2Proof.Machine

open Sys2Proof

/-- `ADD_OVF(xs, ys, ss)`: "overflow occurs iff both operands have the same sign and the result's sign differs from theirs"
(spec/40_add.md R54). -/
def addOvf (xs ys ss : Bit) : Bit := xs == ys && ss != xs

/-- `SUB_OVF(as, bs, ss)`, on the signs of the original minuend and subtrahend and of the difference (spec/41_subtract.md R59). -/
def subOvf (as bs ss : Bit) : Bit := as != bs && ss == bs

/-- `p16 = bv_16(sint(a) · sint(b))`, the full product that only the ENHANCED policy uses (spec/43_multiply.md R73: "Any circuit that
yields this value meets the rule"; log 8). -/
def p16 (a b : Byte) : Product16 := BitVec.ofInt 16 (a.toInt * b.toInt)

/-- `MUL_OVF` (R74). -/
def mulOvf (policy : OvfPolicy) (a b : Byte) : Bit :=
  match policy with
  | .source => false
  | .enhanced => decide ((p16 a b).toInt < -128 ∨ (p16 a b).toInt > 127)

/-- `DIV_OVF` (spec/44_divide.md R86): 0 when the divisor is zero, under every policy. -/
def divOvf (policy : OvfPolicy) (a b : Byte) : Bit :=
  if b = 0x00#8 then false
  else match policy with
    | .source => false
    | .enhanced => decide (a.toInt.tdiv b.toInt > 127)

/-- `dz` of a division (R91, spec/10_state.md R18): the divisor is zero. -/
def divisionByZero (b : Byte) : Bit := decide (b = 0x00#8)

end Sys2Proof.Machine
end

