-- ==== Sys2Proof/Operator.lean ====
section
/-! DEFINITION. The closed enumeration of operators (spec/30_encoding.md R44: "{add, subtract, multiply, divide}"). -/

namespace Sys2Proof

/-- The operation that `op` selects. The enumeration is closed: four codes, none free (R44). -/
inductive Operator
  | add
  | sub
  | mul
  | div
deriving DecidableEq, Repr

end Sys2Proof
end

