-- ==== Sys2Proof/Syntax.lean ====
section
/-! DEFINITION. The instructions: one constructor per row of spec/opcode_table.json. -/

namespace Sys2Proof

/-- One transaction's operation with the operands it reads, as the decoder of spec/30_encoding.md R47 yields it. SUB, MUL and DIV carry
no `cin`: "SUB(a = w[15:8], b = w[7:0]) -- w[16] ignored" (R46, R47). Operands are "the 8-bit patterns on their ports, used as given" (R45). -/
inductive Instr
  /-- `ADD a, b, cin` (spec/40_add.md R57). -/
  | add (a b : Byte) (cin : Bit)
  /-- `SUB a, b` (spec/41_subtract.md R62). -/
  | sub (a b : Byte)
  /-- `MUL a, b` (spec/43_multiply.md R75). -/
  | mul (a b : Byte)
  /-- `DIV a, b` (spec/44_divide.md R87). -/
  | div (a b : Byte)
deriving DecidableEq, Repr

end Sys2Proof
end

