-- ==== Sys2Proof/Decode.lean ====
section
/-! DEFINITION. The request word: its fields, the decoder, the encoder (spec/30_encoding.md R43, R44, R47, R48, R50). -/

namespace Sys2Proof

/-- `w[18:17]`, the `op` field (R43). -/
def opField (w : RequestWord) : BitVec 2 := w.extractLsb' 17 2

/-- `w[16]`, the `cin` field (R43). -/
def cinField (w : RequestWord) : Bit := w.getLsbD 16

/-- `w[15:8]`, the `a` field (R43). -/
def aField (w : RequestWord) : Byte := w.extractLsb' 8 8

/-- `w[7:0]`, the `b` field (R43). -/
def bField (w : RequestWord) : Byte := w.extractLsb' 0 8

/-- `w = {op, cin, a, b}` (R43). -/
def packRequest (op : BitVec 2) (cin : Bit) (a b : Byte) : RequestWord :=
  op ++ BitVec.ofBool cin ++ a ++ b

/-- The operation that a code of R44 names. All four codes are used. -/
def Operator.ofCode (c : BitVec 2) : Operator :=
  match c.toNat with
  | 0 => .add
  | 1 => .sub
  | 2 => .mul
  | _ => .div

/-- The code of an operation (R44). -/
def Operator.code : Operator → BitVec 2
  | .add => 0b00#2
  | .sub => 0b01#2
  | .mul => 0b10#2
  | .div => 0b11#2

/-- The decoder of R47. It is total: "No word is illegal, reserved, a hint or a custom encoding" (R48). `w[16]` is dropped for SUB, MUL
and DIV. -/
def decode (w : RequestWord) : Instr :=
  match Operator.ofCode (opField w) with
  | .add => .add (aField w) (bField w) (cinField w)
  | .sub => .sub (aField w) (bField w)
  | .mul => .mul (aField w) (bField w)
  | .div => .div (aField w) (bField w)

/-- Why a number is no request word. The only reason: it does not fit 19 bits, "The request word is always 19 bits" (R49). -/
inductive DecodeError
  | widerThanRequestWord (w : Nat)
deriving DecidableEq, Repr

/-- The decoder on any number: a number of 19 bits is a request word, a wider one is rejected by name (log 6). -/
def decodeNat (w : Nat) : Except DecodeError Instr :=
  if w < 2 ^ 19 then .ok (decode (BitVec.ofNat 19 w)) else .error (.widerThanRequestWord w)

/-- The decoder on the low `nbits` bits of `w`, numbered as spec/opcode_table.json numbers them. The block stores no word anywhere and
has no byte order (spec/20_memory.md R33), so the bits are the request word's own. -/
def decodeTableWord (nbits w : Nat) : Option Instr :=
  match decodeNat (w % 2 ^ nbits) with
  | .ok i => some i
  | .error _ => none

/-- The request word of an instruction. "An assembler writes `w[16]` = 0 for SUB, MUL and DIV" (R50). -/
def encode : Instr → RequestWord
  | .add a b cin => packRequest Operator.add.code cin a b
  | .sub a b => packRequest Operator.sub.code false a b
  | .mul a b => packRequest Operator.mul.code false a b
  | .div a b => packRequest Operator.div.code false a b

end Sys2Proof
end

