-- ==== Sys2Proof/Machine/State.lean ====
section
/-! DEFINITION. The machine's state: the levels at the ports and the build-time parameters (spec/10_state.md R16, R17; spec/00_scope.md
R8). The block stores nothing (R16, R19, R28), has no memory (spec/20_memory.md R32) and no program counter (R20). -/

namespace Sys2Proof.Machine

open Sys2Proof

/-- The input ports (R17). -/
inductive Port
  | op
  | a
  | b
  | cin
deriving DecidableEq, Repr

/-- The levels at the input ports (R17). `none` at a port: some bit of it is not at a defined 0/1 level, which is the case until the host
has driven it (spec/70_reset_and_hazards.md R112 step 2, R115). It is the spec's own condition, not a missing reset value (log 2). -/
structure Inputs where
  /-- Operator select. -/
  op : Option (BitVec 2)
  /-- First operand. -/
  a : Option Byte
  /-- Second operand. -/
  b : Option Byte
  /-- Carry-in of the addition primitive. -/
  cin : Option Bit
deriving DecidableEq, Repr

/-- The output ports (R17). -/
structure Outputs where
  /-- Result, two's complement. -/
  y : Byte
  /-- Overflow indicator (R21). -/
  ovf : Bit
  /-- Division-by-zero status (R18). -/
  dz : Bit
deriving DecidableEq, Repr

/-- The tagged-result view of the outputs (spec/45_output_mux.md R93). -/
inductive Status
  | ok (value : Byte)
  | overflow
  | divisionByZero
deriving DecidableEq, Repr

/-- The state of one copy of the block. `outputs` is `none` while the outputs have not settled on the present inputs: "the model admits
no value for it" (R113), and "Giving `y`, `ovf` or `dz` a reset value would invent a register" (spec/92_eei_decisions.md D15). It is the
spec's own condition, not a missing reset value (log 3). -/
structure State where
  /-- The parameters the block is built with (R8); nothing writes them. -/
  config : Config
  /-- What the host drives. -/
  inputs : Inputs
  /-- What the host may sample: the outputs of the completed transaction on `inputs`. -/
  outputs : Option Outputs
deriving DecidableEq, Repr

/-- The faults of the machine: none. "Faults are not part of the model at all: a model of this block has no fault outcome"
(spec/60_exceptions.md R94). No one raises a fault; an empty list of faults is safe only in so far as R94 is true of the block (log 9). -/
inductive Fault
deriving DecidableEq, Repr

/-- Why a step is refused. No instruction is refused. -/
inductive Refusal
  /-- Raised by an arm of exec for an instruction that has no meaning. No arm raises it in this model. Safe. -/
  | notModelled (mnemonic : String)
  /-- Raised by step when a bit of the port is not at a defined 0/1 level: "a model treats that as outside its domain" (R115;
  spec/93_implementation_defined.md I9, treatment `refuse`). Safe: the machine's outputs are then unspecified (log 2). -/
  | inputUndriven (port : Port)
deriving DecidableEq, Repr

/-- No input port is at a defined level. -/
def Inputs.undriven : Inputs := { op := none, a := none, b := none, cin := none }

/-- A block built with the parameters `c`, right after power is applied (R111, R112): the outputs are unspecified
(log 3). That no input port is driven at that moment is the model's choice (logs 2 and 16, DESIGN CHOICE). -/
def State.powerUp (c : Config) : State := { config := c, inputs := Inputs.undriven, outputs := none }

/-- The machine right after reset. There is no reset input and nothing to reset (spec/10_state.md R31, spec/70_reset_and_hazards.md
R110), so this is the block as the document's defaults build it (R8), right after power is applied. -/
def State.reset : State := State.powerUp Config.documentDefaults

end Sys2Proof.Machine
end

