-- ==== Sys2Proof/Machine/Operands.lean ====
section
/-! DEFINITION. How operands enter and results leave: the ports as a request word and back (spec/30_encoding.md R43, R45), and the views
of the outputs (spec/10_state.md R29, spec/45_output_mux.md R93). -/

namespace Sys2Proof.Machine

open Sys2Proof

/-- The ports at the levels a request word packs: "The hardware receives these as separate ports" (R43). -/
def Inputs.ofRequest (w : RequestWord) : Inputs :=
  { op := some (opField w), a := some (aField w), b := some (bField w), cin := some (cinField w) }

/-- The request word that the ports' levels form, or the first port (in the order op, a, b, cin) that is not at defined levels. `cin` must
be driven for every operation: R115 speaks of every input bit. -/
def Inputs.request (i : Inputs) : Except Port RequestWord :=
  match i.op, i.a, i.b, i.cin with
  | none, _, _, _ => .error .op
  | some _, none, _, _ => .error .a
  | some _, some _, none, _ => .error .b
  | some _, some _, some _, none => .error .cin
  | some op, some a, some b, some cin => .ok (packRequest op cin a b)

/-- A byte as the document's bit sequence, most significant first: `(y[7], y[6], ..., y[0])` (R29). -/
def bitSequence (v : Byte) : List Bit :=
  [v.getLsbD 7, v.getLsbD 6, v.getLsbD 5, v.getLsbD 4, v.getLsbD 3, v.getLsbD 2, v.getLsbD 1, v.getLsbD 0]

/-- The unsigned value of a bit sequence, most significant first (R10). -/
def sequenceValue (bits : List Bit) : Nat :=
  bits.foldl (fun n bit => 2 * n + bit.toNat) 0

/-- The result as a bit sequence and the overflow indicator: the other form in which "the core emits the result" (R29). -/
def Outputs.asSequence (o : Outputs) : List Bit × Bit := (bitSequence o.y, o.ovf)

/-- The call contract's pair `(result, overflow)`, as a vector `-> (y, ovf)` shows it (R17, R50): a host that ignores `dz` (R18). -/
def Outputs.pair (o : Outputs) : Int × Bit := (o.y.toInt, o.ovf)

/-- The tagged result a host may derive: `dz` is tested before `ovf` (R93). -/
def Outputs.status (o : Outputs) : Status :=
  if o.dz then .divisionByZero else if o.ovf then .overflow else .ok o.y

end Sys2Proof.Machine
end

