-- ==== Sys2Proof/Machine/Ops.lean ====
section
/-! DEFINITION. The datapath, as the spec builds it bit by bit (spec/40_add.md to spec/44_divide.md), and the operations on the ports.
The block has no memory, no exception entry and no return from one (spec/20_memory.md R32, spec/60_exceptions.md R98, R99), so no
operation here stands for them. -/

namespace Sys2Proof.Machine

open Sys2Proof

/-! ## The addition primitive (R52 to R56) -/

/-- A full-adder cell: sum bit and carry-out (R52). -/
def fullAdder (x y c : Bit) : Bit × Bit := (x ^^ y ^^ c, (x && y) || (c && (x ^^ y)))

/-- `c[i]` of the ripple chain: `c[0]` is the carry-in, `c[i+1]` the carry-out of cell i (R53). `carryBit x y c0 8` is the carry out of
bit 7, which is discarded (spec/10_state.md R23). -/
def carryBit (x y : Byte) (c0 : Bit) : Nat → Bit
  | 0 => c0
  | i + 1 => (fullAdder (x.getLsbD i) (y.getLsbD i) (carryBit x y c0 i)).2

/-- `s[i]` of the ripple chain (R53). -/
def sumBit (x y : Byte) (c0 : Bit) (i : Nat) : Bit :=
  (fullAdder (x.getLsbD i) (y.getLsbD i) (carryBit x y c0 i)).1

/-- The byte `{f 7, f 6, ..., f 0}` (R11). -/
def byteOfBits (f : Nat → Bit) : Byte :=
  BitVec.ofBool (f 7) ++ BitVec.ofBool (f 6) ++ BitVec.ofBool (f 5) ++ BitVec.ofBool (f 4) ++
    BitVec.ofBool (f 3) ++ BitVec.ofBool (f 2) ++ BitVec.ofBool (f 1) ++ BitVec.ofBool (f 0)

/-- What the addition primitive returns: `(s, v)` (R53). -/
structure Sum where
  /-- The 8-bit sum. -/
  s : Byte
  /-- The overflow bit. -/
  v : Bit
deriving DecidableEq, Repr

/-- `ADD8(x, y, c0) -> (s, v)` (R53), with the overflow rule of R54, not the carry out (R55). -/
def add8 (x y : Byte) (c0 : Bit) : Sum :=
  let s := byteOfBits (sumBit x y c0)
  { s := s, v := addOvf (x.getLsbD 7) (y.getLsbD 7) (s.getLsbD 7) }

/-- `SUB8(a, b) -> (s, v_inner)`: `a + ¬b + 1` (spec/41_subtract.md R58). -/
def sub8 (a b : Byte) : Sum := add8 a (~~~b) true

/-! ## Signed-magnitude conversion (spec/42_sign_magnitude.md) -/

/-- `NEG8(x)`: `0 + ¬x + 1` (R63). -/
def neg8 (x : Byte) : Byte := (add8 0x00#8 (~~~x) true).s

/-- What MAG returns: `(m, n)` (R64). -/
structure SignMag where
  /-- The magnitude, unsigned: 0x80 is 128 (R65). -/
  m : Byte
  /-- Whether the operand was negative. -/
  n : Bit
deriving DecidableEq, Repr

/-- `MAG(x) -> (m, n)` (R64). -/
def mag (x : Byte) : SignMag :=
  { m := if x.getLsbD 7 then neg8 x else x, n := x.getLsbD 7 }

/-- `RESTORE(m, neg)` (R66). -/
def restore (m : Byte) (neg : Bit) : Byte := if neg then neg8 m else m

/-! ## Multiplication (spec/43_multiply.md) -/

/-- `pp_i`: the multiplicand's magnitude shifted left by i at 8 bits, or 0 (R69). -/
def partialProduct (ma mb : Byte) (i : Nat) : Byte := if mb.getLsbD i then ma <<< i else 0x00#8

/-- `acc_i`, the running total after i additions (R70). -/
def accumulate (ma mb : Byte) : Nat → Byte
  | 0 => 0x00#8
  | i + 1 => (add8 (accumulate ma mb i) (partialProduct ma mb i) false).s

/-- `prod8` (R68, R71): `acc_8`, negated when exactly one operand was negative. -/
def prod8 (a b : Byte) : Byte :=
  restore (accumulate (mag a).m (mag b).m Config.iter) ((mag a).n ^^ (mag b).n)

/-! ## Division (spec/44_divide.md) -/

/-- `L_k`, the left half `W[14:7]` (R77, R78). -/
def leftHalf (w : WorkReg) : Byte := w.extractLsb' 7 8

/-- `R_k`, the right half `W[6:0]` (R77, R78). -/
def rightHalf (w : WorkReg) : BitVec 7 := w.extractLsb' 0 7

/-- `D_k = ADD8(L_k, ~mb, 1).s`, the trial difference; its overflow bit is discarded (R67, R78). -/
def trialDiff (mb : Byte) (w : WorkReg) : Byte := (add8 (leftHalf w) (~~~mb) true).s

/-- `t_k`: 1 when the sign bit of the trial difference is 0, "divisor fit" (R78). -/
def trialFits (mb : Byte) (w : WorkReg) : Bit := !(trialDiff mb w).getLsbD 7

/-- `X_k`: `{D_k, R_k}` when the divisor fit, else the register unchanged (R78; restoring division, 90_conflicts.md C1). -/
def trialKeep (mb : Byte) (w : WorkReg) : WorkReg :=
  if trialFits mb w then trialDiff mb w ++ rightHalf w else w

/-- `W_k`: the dividend magnitude zero-extended (R77), then `X_k << 1` at 15 bits after each trial (R78). -/
def workReg (ma mb : Byte) : Nat → WorkReg
  | 0 => ma.setWidth 15
  | k + 1 => trialKeep mb (workReg ma mb k) <<< 1

/-- `q`: the first trial bit is the most significant, `q[7-k] <- t_k` (R79). -/
def quotientMag (ma mb : Byte) : Byte := byteOfBits fun i => trialFits mb (workReg ma mb (7 - i))

/-- The left half of `X_7`: the magnitude of the remainder, which is internal (R83). -/
def remainderMag (ma mb : Byte) : Byte := leftHalf (trialKeep mb (workReg ma mb 7))

/-- `quo8` (R76, R80): `q`, negated when the operands' signs differ. -/
def quo8 (a b : Byte) : Byte :=
  restore (quotientMag (mag a).m (mag b).m) ((mag a).n ^^ (mag b).n)

/-! ## The ports -/

/-- The outputs take these values: the transaction is complete (spec/10_state.md R16). -/
def State.settle (s : State) (o : Outputs) : State := { s with outputs := some o }

/-- The host brings the input ports to these levels. "If any input changes, that begins a new transaction. The outputs of the old one are
lost" (spec/70_reset_and_hazards.md R114); inputs that do not change leave the outputs as they are (log 12). -/
def State.drive (s : State) (i : Inputs) : State :=
  if s.inputs = i then s else { s with inputs := i, outputs := none }

/-- The host presents the transaction that a request word packs (R16, R43). -/
def State.present (s : State) (w : RequestWord) : State := s.drive (Inputs.ofRequest w)

/-- Power is removed and applied again. The block is still built the same (R8), and the outputs are unspecified until a transaction
completes (spec/60_exceptions.md R109, spec/70_reset_and_hazards.md R111). Whether the levels the host drives at the inputs stay through
it, no rule says: that all four ports are then not driven, so that the host must drive them again, is the model's choice (log 16, DESIGN
CHOICE). -/
def State.powerCycle (s : State) : State := State.powerUp s.config

end Sys2Proof.Machine
end

