-- ==== Sys2Proof/Machine/Additive.lean ====
section
/-! DEFINITION. The meanings of ADD and SUB, the additive family (spec/45_output_mux.md R90). Neither raises an exception; every input
returns a value. -/

namespace Sys2Proof.Machine

open Sys2Proof

/-- ADD (spec/40_add.md R57): `(s, v) <- ADD8(a, b, cin)`; `y <- s`, `ovf <- v`, `dz <- 0`. -/
def execAdd (a b : Byte) (cin : Bit) (s : State) : Host.Outcome State Fault Refusal :=
  let sum := add8 a b cin
  .next (s.settle { y := sum.s, ovf := sum.v, dz := false })

/-- SUB (spec/41_subtract.md R62): `y` is the sum of SUB8; `ovf` is SUB_OVF on the original signs, not the inner flag (R59). -/
def execSub (a b : Byte) (s : State) : Host.Outcome State Fault Refusal :=
  let diff := (sub8 a b).s
  .next (s.settle { y := diff, ovf := subOvf (a.getLsbD 7) (b.getLsbD 7) (diff.getLsbD 7), dz := false })

end Sys2Proof.Machine
end

