-- ==== Sys2Proof/Machine/Multiplicative.lean ====
section
/-! DEFINITION. The meanings of MUL and DIV, the multiplicative family (spec/45_output_mux.md R90). Neither raises an exception; every
input returns a value. -/

namespace Sys2Proof.Machine

open Sys2Proof

/-- MUL (spec/43_multiply.md R75): `y` is `prod8`; `ovf` follows `MUL_OVF_POLICY` (R74). -/
def execMul (a b : Byte) (s : State) : Host.Outcome State Fault Refusal :=
  .next (s.settle { y := prod8 a b, ovf := mulOvf s.config.mulOvf a b, dz := false })

/-- `y` of a division (spec/44_divide.md R85, R87): `DIV0_MODE` selects it when the divisor is zero. -/
def divResult (mode : Div0Mode) (a b : Byte) : Byte :=
  if b = 0x00#8 then
    match mode with
    | .zero => 0x00#8
    | .raw => quo8 a b
  else quo8 a b

/-- DIV (spec/44_divide.md R87): the quotient truncated toward zero; a zero divisor is reported on `dz` and nothing is raised. -/
def execDiv (a b : Byte) (s : State) : Host.Outcome State Fault Refusal :=
  .next (s.settle { y := divResult s.config.div0 a b, ovf := divOvf s.config.divOvf a b, dz := divisionByZero b })

end Sys2Proof.Machine
end

