-- ==== Sys2Proof/Machine/Dispatch.lean ====
section
/-! DEFINITION. One arm per constructor of Instr. "`op` selects exactly one of ADD, SUB, MUL and DIV" (spec/45_output_mux.md R88). -/

namespace Sys2Proof.Machine

open Sys2Proof

/-- One operation on its operands: the outputs take its values. -/
def exec (i : Instr) (s : State) : Host.Outcome State Fault Refusal :=
  match i with
  | .add a b cin => Sys2Proof.Machine.execAdd a b cin s
  | .sub a b => Sys2Proof.Machine.execSub a b s
  | .mul a b => Sys2Proof.Machine.execMul a b s
  | .div a b => Sys2Proof.Machine.execDiv a b s

end Sys2Proof.Machine
end

