-- ==== Sys2Proof/Machine/Step.lean ====
section
/-! DEFINITION. One step is one transaction (spec/10_state.md R16): the levels at the input ports have been stable for `T_SETTLE`, the
operation they select runs on them, and the outputs take its values. -/

namespace Sys2Proof.Machine

open Sys2Proof

/-- One transaction on the present inputs. It is refused only when a port is not at defined levels (spec/70_reset_and_hazards.md R115). -/
def step (s : State) : Host.Outcome State Fault Refusal :=
  match s.inputs.request with
  | .ok w => exec (decode w) s
  | .error p => .refused (.inputUndriven p)

/-- The instruction whose low bits are `w`, placed where the next step takes its instruction from: at the input ports. The block fetches
nothing (spec/20_memory.md R32, R41); this stands for the host presenting a request (log 5). A request has 19 bits, so bits of `w` above
them reach no port (log 6). -/
def State.withFetchWord (s : State) (nbits w : Nat) : State :=
  s.present (BitVec.ofNat 19 (w % 2 ^ nbits))

end Sys2Proof.Machine
end

