-- ==== Sys2Proof/Assembly.lean ====
section
/-! DEFINITION. The assembly text as tokens and statements (spec/30_encoding.md R50, R51; spec/00_scope.md R13). The lexical grammar
(spaces, letter case, digits) is not in the spec and is left out (log 13). What a statement denotes is in Sys2Proof/Machine/Assembler.lean. -/

namespace Sys2Proof

/-- An operand as written (R13, R50): a signed decimal, or an 8-bit pattern in `0x` or `0b` form. -/
inductive Literal
  | decimal (value : Int)
  | hex (pattern : Nat)
  | binary (pattern : Nat)
deriving DecidableEq, Repr

/-- The names of R50 and R51: mnemonics and pseudo-mnemonics in capitals, the call form's function names in small letters. -/
inductive Keyword
  | ADD | SUB | MUL | DIV | INC | DEC | NEG
  | add | subtract | multiply | divide
deriving DecidableEq, Repr

/-- A token of a line of assembly. -/
inductive Token
  | keyword (k : Keyword)
  | literal (l : Literal)
  | comma
  | openParen
  | closeParen
deriving DecidableEq, Repr

/-- A line of assembly: the four operations of R50 and the four pseudo-operations of R51. Both forms of R50 are one statement. -/
inductive Stmt
  | add (a b cin : Literal)
  | sub (a b : Literal)
  | mul (a b : Literal)
  | div (a b : Literal)
  /-- The pseudo-operation `ADD a, b`. -/
  | addNoCarry (a b : Literal)
  | inc (a : Literal)
  | dec (a : Literal)
  | neg (x : Literal)
deriving DecidableEq, Repr

end Sys2Proof
end

