-- ==== Sys2Proof/WellFormed.lean ====
section
/-! DEFINITION. What must hold of an operand before it is a request. An `Instr` needs no check: "Every one of the 256 patterns is a valid
operand" (spec/30_encoding.md R45, R48), and its fields are exactly those patterns. What can be ill formed is the assembly text (R50). -/

namespace Sys2Proof

/-- "An operand is a signed decimal in [−128, 127] or an 8-bit pattern written `0x..` or `0b..`" (R50). -/
def Literal.wellFormed : Literal → Bool
  | .decimal n => decide (-128 ≤ n ∧ n ≤ 127)
  | .hex n => decide (n < 256)
  | .binary n => decide (n < 256)

/-- "`cin` is `0` or `1`" (R50). -/
def Literal.wellFormedCarry : Literal → Bool
  | .decimal n => decide (n = 0 ∨ n = 1)
  | .hex _ => false
  | .binary _ => false

/-- Every operand of the statement is an operand of R50. -/
def Stmt.wellFormed : Stmt → Bool
  | .add a b cin => a.wellFormed && b.wellFormed && cin.wellFormedCarry
  | .sub a b => a.wellFormed && b.wellFormed
  | .mul a b => a.wellFormed && b.wellFormed
  | .div a b => a.wellFormed && b.wellFormed
  | .addNoCarry a b => a.wellFormed && b.wellFormed
  | .inc a => a.wellFormed
  | .dec a => a.wellFormed
  | .neg x => x.wellFormed

end Sys2Proof
end

