-- ==== Sys2Proof/Machine/Assembler.lean ====
section
/-! DEFINITION. What a line of assembly denotes (spec/30_encoding.md R50, R51). "A decoder never sees a pseudo-instruction: it sees only
the expanded request word" (R51). -/

namespace Sys2Proof.Machine

open Sys2Proof

/-- The 8-bit pattern an operand stands for (spec/00_scope.md R13). -/
def literalByte : Literal → Byte
  | .decimal n => BitVec.ofInt 8 n
  | .hex n => BitVec.ofNat 8 n
  | .binary n => BitVec.ofNat 8 n

/-- The bit a carry operand stands for: `0` or `1` (R50). -/
def literalBit : Literal → Bit
  | .decimal n => decide (n = 1)
  | .hex n => decide (n = 1)
  | .binary n => decide (n = 1)

/-- The one transaction a line stands for: R50 for the operations, R51 for the pseudo-operations. -/
def stmtInstr : Stmt → Instr
  | .add a b cin => .add (literalByte a) (literalByte b) (literalBit cin)
  | .sub a b => .sub (literalByte a) (literalByte b)
  | .mul a b => .mul (literalByte a) (literalByte b)
  | .div a b => .div (literalByte a) (literalByte b)
  | .addNoCarry a b => .add (literalByte a) (literalByte b) false
  | .inc a => .add (literalByte a) 0x00#8 true
  | .dec a => .sub (literalByte a) 0x01#8
  | .neg x => .sub 0x00#8 (literalByte x)

/-- The line a list of tokens spells, in the mnemonic form or the call form of R50, or as a pseudo-operation of R51. -/
def parseTokens : List Token → Option Stmt
  | [.keyword .ADD, .literal a, .comma, .literal b, .comma, .literal cin] => some (.add a b cin)
  | [.keyword .SUB, .literal a, .comma, .literal b] => some (.sub a b)
  | [.keyword .MUL, .literal a, .comma, .literal b] => some (.mul a b)
  | [.keyword .DIV, .literal a, .comma, .literal b] => some (.div a b)
  | [.keyword .add, .openParen, .literal a, .comma, .literal b, .comma, .literal cin, .closeParen] => some (.add a b cin)
  | [.keyword .subtract, .openParen, .literal a, .comma, .literal b, .closeParen] => some (.sub a b)
  | [.keyword .multiply, .openParen, .literal a, .comma, .literal b, .closeParen] => some (.mul a b)
  | [.keyword .divide, .openParen, .literal a, .comma, .literal b, .closeParen] => some (.div a b)
  | [.keyword .ADD, .literal a, .comma, .literal b] => some (.addNoCarry a b)
  | [.keyword .INC, .literal a] => some (.inc a)
  | [.keyword .DEC, .literal a] => some (.dec a)
  | [.keyword .NEG, .literal x] => some (.neg x)
  | _ => none

/-- The request word of a line, or nothing where an operand is none of R50's. -/
def assemble (line : Stmt) : Option RequestWord :=
  if line.wellFormed then some (encode (stmtInstr line)) else none

end Sys2Proof.Machine
end

