-- ==== Sys2Proof/Machine/Unit.lean ====
section
/-! DEFINITION. The whole block as one function, as spec/45_output_mux.md R92 writes it. -/

namespace Sys2Proof.Machine

open Sys2Proof

/-- `UNIT(op, a, b, cin) -> (y, ovf, dz)` (R92), with the result mux (R89), the overflow mux (R90) and the division-by-zero status (R91). -/
def unit (c : Config) (op : BitVec 2) (a b : Byte) (cin : Bit) : Outputs :=
  match Operator.ofCode op with
  | .add => { y := (add8 a b cin).s, ovf := (add8 a b cin).v, dz := false }
  | .sub =>
    let s := (sub8 a b).s
    { y := s, ovf := subOvf (a.getLsbD 7) (b.getLsbD 7) (s.getLsbD 7), dz := false }
  | .mul => { y := prod8 a b, ovf := mulOvf c.mulOvf a b, dz := false }
  | .div =>
    if b = 0x00#8 then
      { y := match c.div0 with
          | .zero => 0x00#8
          | .raw => quo8 a 0x00#8
        ovf := false, dz := true }
    else { y := quo8 a b, ovf := divOvf c.divOvf a b, dz := false }

end Sys2Proof.Machine
end

