-- ==== Sys2Proof/Machine/Transaction.lean ====
section
/-! DEFINITION. What the host does with the block over time (spec/70_reset_and_hazards.md R112 to R114, spec/20_memory.md R38). -/

namespace Sys2Proof.Machine

open Sys2Proof

/-- One transaction as the host carries it out: present the request, hold it until the outputs have settled (R16, R112). -/
def State.transact (s : State) (w : RequestWord) : Host.Outcome State Fault Refusal := step (s.present w)

/-- The host holds the present inputs stable for a time `t`. From `T_SETTLE` on, the outputs are those of the transaction; before it there
is nothing to sample (R113). -/
def State.hold (s : State) (t : Nat) : Host.Outcome State Fault Refusal :=
  if Config.tSettle ≤ t then step s else .next s

/-- The state a transaction leaves, or the state before it where the transaction is refused. -/
def State.afterTransaction (s : State) (w : RequestWord) : State :=
  match s.transact w with
  | .next t => t
  | .fault _ => s
  | .refused _ => s

/-- The outputs the host samples, one for each transaction of a sequence on one block (R38). -/
def State.sampleAll (s : State) : List RequestWord → List (Option Outputs)
  | [] => []
  | w :: ws => (s.afterTransaction w).outputs :: (s.afterTransaction w).sampleAll ws

/-- The outputs of a request on a block built with `c`: UNIT on the request's fields (spec/45_output_mux.md R92). -/
def unitOf (c : Config) (w : RequestWord) : Outputs := unit c (opField w) (aField w) (bField w) (cinField w)

end Sys2Proof.Machine
end

