-- ==== Sys2Proof/Safety.lean ====
section
/-! DEFINITION. The terms the claims use: what the four operations compute in integer arithmetic, and when the outputs of a state may be
sampled. The reference below is written from the arithmetic laws (spec/40_add.md R56, spec/41_subtract.md R61, spec/43_multiply.md R72,
R74, spec/44_divide.md R82, R84, R85, R86), not from the datapath. -/

namespace Sys2Proof.Machine

open Sys2Proof

/-- The true result does not fit a signed byte (spec/10_state.md R21). -/
def outOfRange (k : Int) : Bit := decide (k < -128 ∨ 127 < k)

/-- A result `k` wrapped to a signed byte, with `ovf` exact where `exact` says so. -/
def wrapped (k : Int) (exact : Bool) : Outputs := { y := BitVec.ofInt 8 k, ovf := exact && outOfRange k, dz := false }

/-- The raw quotient the datapath forms on a zero divisor (R84). -/
def rawDivZero (a : Byte) : Byte := if 0 ≤ a.toInt then 0xFF#8 else if a = 0x80#8 then 0x02#8 else 0x01#8

/-- Each operation on the operands' signed values: exact, then wrapped. -/
def reference (c : Config) : Instr → Outputs
  | .add a b cin => wrapped (a.toInt + b.toInt + cin.toNat) true
  | .sub a b => wrapped (a.toInt - b.toInt) true
  | .mul a b => wrapped (a.toInt * b.toInt) (decide (c.mulOvf = .enhanced))
  | .div a b =>
    if b = 0x00#8 then
      { y := match c.div0 with
          | .zero => 0x00#8
          | .raw => rawDivZero a
        ovf := false, dz := true }
    else wrapped (a.toInt.tdiv b.toInt) (decide (c.divOvf = .enhanced))

/-- The outputs of a state, where there are any, are those that integer arithmetic gives for the levels now at its inputs: what a host
samples belongs to what it drives (spec/70_reset_and_hazards.md R113, R114). -/
def State.outputsCurrent (s : State) : Prop :=
  ∀ o, s.outputs = some o → ∃ w, s.inputs.request = .ok w ∧ o = reference s.config (decode w)

/-- At most one of the two status outputs is 1 (spec/60_exceptions.md R97). -/
def State.oneStatus (s : State) : Prop :=
  ∀ o, s.outputs = some o → ¬ (o.ovf = true ∧ o.dz = true)

/-- The states a block built with `c` can be in, from power-up: the host drives inputs, completes transactions and cuts power in any
order. That the ports are not driven after power-up and after a power cycle is the model's choice (logs 2 and 16); whatever levels then
stand there are reached by driving them. -/
inductive Reachable (c : Config) : State → Prop
  | powerUp : Reachable c (State.powerUp c)
  | drive {s : State} (i : Inputs) : Reachable c s → Reachable c (s.drive i)
  | step {s t : State} : Reachable c s → step s = .next t → Reachable c t
  | powerCycle {s : State} : Reachable c s → Reachable c s.powerCycle

end Sys2Proof.Machine
end

