-- ==== Sys2Proof/Certificates/Slice0/Obligations.lean ====
section
/-! DEFINITION. The statements for the provers. Each names the rule of spec/ it formalises; where a clause rests on a choice of the
model, the docstring names the log entry. -/

open Sys2Proof Sys2Proof.Machine

/-! ## Reset and power -/

/-- What State.reset holds: the document's default parameters (R8), and no settled outputs, since none is stored (R110, R111). That the
input ports are then not driven is the model's choice (log 2), and that absent outputs stand for unspecified ones is too (log 3). -/
def Obligations.ResetIsDefaultBuildWithNothingDriven : Prop :=
  State.reset.config = { mulOvf := .source, divOvf := .source, div0 := .zero } ∧
    State.reset.outputs = none ∧
    State.reset.inputs.op = none ∧ State.reset.inputs.a = none ∧
    State.reset.inputs.b = none ∧ State.reset.inputs.cin = none

/-- The two invariants of the outputs hold at reset. -/
def Obligations.ResetMeetsOutputInvariants : Prop :=
  State.reset.outputsCurrent ∧ State.reset.oneStatus

/-- R111: after power is applied the outputs are unspecified (in the model: absent, log 3); from a completed transaction on they are UNIT
of the inputs, and no earlier history, an earlier power cycle included, affects them. -/
def Obligations.PowerCycleForgetsHistory : Prop :=
  ∀ (s : State) (w : RequestWord),
    s.powerCycle.outputs = none ∧
      s.powerCycle.transact w = s.transact w ∧
      ∃ t, s.powerCycle.transact w = .next t ∧ t.outputs = some (unitOf s.config w)

/-! ## The request word -/

/-- Request words written out in the spec decode to the operations they stand for (R50, R57, R62, R75, R87 and 95_test_vectors.md). -/
def Obligations.SpecWordsDecode : Prop :=
  decode 0x07F01#19 = .add 127#8 1#8 false ∧
    decode 0x18080#19 = .add 0x80#8 0x80#8 true ∧
    decode 0x20503#19 = .sub 5#8 3#8 ∧
    decode 0x30503#19 = .sub 5#8 3#8 ∧
    decode 0x480FF#19 = .mul 0x80#8 0xFF#8 ∧
    decode 0x60F03#19 = .div 15#8 3#8

/-- R47: only `w[18:17]` selects the operation, as the match and mask pairs of the table say, and the operands are the fields. -/
def Obligations.MatchAndMaskSelectTheOperation : Prop :=
  ∀ w : RequestWord,
    (w &&& 0x60000#19 = 0x00000#19 →
      decode w = .add (w.extractLsb' 8 8) (w.extractLsb' 0 8) (w.getLsbD 16)) ∧
    (w &&& 0x60000#19 = 0x20000#19 → decode w = .sub (w.extractLsb' 8 8) (w.extractLsb' 0 8)) ∧
    (w &&& 0x60000#19 = 0x40000#19 → decode w = .mul (w.extractLsb' 8 8) (w.extractLsb' 0 8)) ∧
    (w &&& 0x60000#19 = 0x60000#19 → decode w = .div (w.extractLsb' 8 8) (w.extractLsb' 0 8))

/-- Decoding the encoding of any instruction gives it back, with every operand at every value; so does the table's numbering on 24 bits. -/
def Obligations.DecodeOfEncodeIsIdentity : Prop :=
  ∀ i : Instr, decode (encode i) = i ∧ decodeTableWord 24 (encode i).toNat = some i

/-- Encoding what a word decodes to gives the word back, but for `w[16]` of SUB, MUL and DIV, which is ignored and written as 0 (R46,
R50). No other bit is dropped. -/
def Obligations.EncodeOfDecodeClearsOnlyIgnoredCarry : Prop :=
  ∀ w : RequestWord,
    encode (decode w) = if w.extractLsb' 17 2 = 0b00#2 then w else w &&& 0x6FFFF#19

/-- A number is a request word exactly when it fits 19 bits (R49); a wider one is rejected by name (log 6). -/
def Obligations.OnlyNineteenBitNumbersDecode : Prop :=
  (∀ w : RequestWord, decodeNat w.toNat = .ok (decode w)) ∧
    ∀ n : Nat, 2 ^ 19 ≤ n → decodeNat n = .error (.widerThanRequestWord n)

/-- R48: every request word decodes to exactly one operation, the one its `op` field names, with its operands, the fields of the word;
and its transaction completes with outputs, whatever the state and the build. -/
def Obligations.EveryRequestWordCompletes : Prop :=
  ∀ (s : State) (w : RequestWord),
    ((opField w = 0b00#2 ∧ decode w = .add (aField w) (bField w) (cinField w)) ∨
        (opField w = 0b01#2 ∧ decode w = .sub (aField w) (bField w)) ∨
        (opField w = 0b10#2 ∧ decode w = .mul (aField w) (bField w)) ∨
        (opField w = 0b11#2 ∧ decode w = .div (aField w) (bField w))) ∧
      ∃ t o, s.transact w = .next t ∧ t.outputs = some o

/-- R46: ADD adds `cin` as ADD8(a, b, cin), and the two request words of SUB, MUL or DIV that differ only in `w[16]` give identical
outputs. -/
def Obligations.CarryInIsReadByAddOnly : Prop :=
  ∀ (s : State) (a b : Byte) (cin : Bit),
    (∃ t, s.transact (packRequest 0b00#2 cin a b) = .next t ∧
        t.outputs = some { y := (add8 a b cin).s, ovf := (add8 a b cin).v, dz := false }) ∧
      (∃ t, s.transact (packRequest 0b01#2 cin a b) = .next t ∧
        t.outputs.map Outputs.y = some (add8 a (~~~b) true).s) ∧
      ∀ op : BitVec 2, op ≠ 0b00#2 →
        (s.afterTransaction (packRequest op true a b)).outputs =
          (s.afterTransaction (packRequest op false a b)).outputs

/-! ## The assembly -/

/-- R50: the mnemonic form and the call form of each operation are one line; a line of well-formed operands, decimal, hexadecimal or
binary, assembles to the request word of R50's table, with `w[16]` the carry operand for ADD and 0 for SUB, MUL and DIV; a literal stands
for its value. That the assembly starts from tokens, that a hexadecimal or binary literal is the number its digits spell, and that the
carry operand is spelled `0` or `1` and no other way, is the model's reading (log 13). -/
def Obligations.AssemblyFormsGiveTheTablesWords : Prop :=
  (∀ a b c : Literal,
      parseTokens [.keyword .ADD, .literal a, .comma, .literal b, .comma, .literal c] = some (.add a b c) ∧
      parseTokens [.keyword .add, .openParen, .literal a, .comma, .literal b, .comma, .literal c, .closeParen] =
        some (.add a b c)) ∧
    (∀ a b : Literal,
      parseTokens [.keyword .SUB, .literal a, .comma, .literal b] = some (.sub a b) ∧
      parseTokens [.keyword .subtract, .openParen, .literal a, .comma, .literal b, .closeParen] = some (.sub a b) ∧
      parseTokens [.keyword .MUL, .literal a, .comma, .literal b] = some (.mul a b) ∧
      parseTokens [.keyword .multiply, .openParen, .literal a, .comma, .literal b, .closeParen] = some (.mul a b) ∧
      parseTokens [.keyword .DIV, .literal a, .comma, .literal b] = some (.div a b) ∧
      parseTokens [.keyword .divide, .openParen, .literal a, .comma, .literal b, .closeParen] = some (.div a b)) ∧
    (∀ a b : Literal, a.wellFormed = true → b.wellFormed = true →
      (∀ c : Literal, c.wellFormedCarry = true →
        assemble (.add a b c) = some (packRequest 0b00#2 (literalBit c) (literalByte a) (literalByte b))) ∧
      assemble (.sub a b) = some (packRequest 0b01#2 false (literalByte a) (literalByte b)) ∧
      assemble (.mul a b) = some (packRequest 0b10#2 false (literalByte a) (literalByte b)) ∧
      assemble (.div a b) = some (packRequest 0b11#2 false (literalByte a) (literalByte b))) ∧
    (∀ m : Int, -128 ≤ m → m ≤ 127 →
      (Literal.decimal m).wellFormed = true ∧ (literalByte (.decimal m)).toInt = m) ∧
    (∀ n : Nat, n < 256 →
      (Literal.hex n).wellFormed = true ∧ (literalByte (.hex n)).toNat = n ∧
      (Literal.binary n).wellFormed = true ∧ (literalByte (.binary n)).toNat = n) ∧
    (∀ c : Literal, c.wellFormedCarry = true ↔ c = .decimal 0 ∨ c = .decimal 1) ∧
    literalBit (.decimal 0) = false ∧ literalBit (.decimal 1) = true

/-- R51: each pseudo-operation is one transaction; INC adds 1, DEC subtracts 1, and NEG's `y` and `ovf` are those of `0 + ¬x + 1`. -/
def Obligations.PseudoOperationsExpand : Prop :=
  ∀ (s : State) (x z : Literal),
    exec (stmtInstr (.addNoCarry x z)) s = exec (.add (literalByte x) (literalByte z) false) s ∧
    exec (stmtInstr (.inc x)) s = exec (.add (literalByte x) 0x00#8 true) s ∧
    exec (stmtInstr (.dec x)) s = exec (.sub (literalByte x) 0x01#8) s ∧
    (∃ t o, exec (stmtInstr (.inc x)) s = .next t ∧ t.outputs = some o ∧ o.y = literalByte x + 1#8) ∧
    (∃ t o, exec (stmtInstr (.dec x)) s = .next t ∧ t.outputs = some o ∧ o.y = literalByte x - 1#8) ∧
    exec (stmtInstr (.neg x)) s =
      .next (s.settle
        { y := neg8 (literalByte x), ovf := (add8 0x00#8 (~~~(literalByte x)) true).v, dz := false }) ∧
    exec (stmtInstr (.neg (.decimal (-128)))) s = .next (s.settle { y := 0x80#8, ovf := true, dz := false })

/-! ## The step -/

/-- When the ports are at the levels of a request, a step is exec of the request's instruction at that state; presenting a request puts
the ports there. Nothing else is done around exec. -/
def Obligations.StepRunsTheDecodedRequest : Prop :=
  ∀ (s : State) (op : BitVec 2) (a b : Byte) (cin : Bit),
    (s.inputs = { op := some op, a := some a, b := some b, cin := some cin } →
        step s = exec (decode (packRequest op cin a b)) s) ∧
      (s.present (packRequest op cin a b)).inputs = { op := some op, a := some a, b := some b, cin := some cin }

/-- A word that the table's decoder reads as an instruction runs as that instruction in the very next step. The block fetches nothing:
that a word is placed by presenting it at the input ports is the model's reading (log 5), and that the table's number is a request word
when it fits 19 bits is its choice (log 6). -/
def Obligations.FetchWordRunsTheTablesInstruction : Prop :=
  ∀ (s : State) (nbits w : Nat) (i : Instr), decodeTableWord nbits w = some i →
    step (s.withFetchWord nbits w) = exec i (s.withFetchWord nbits w) ∧
      (s.withFetchWord nbits w).config = s.config

/-- A step completes exactly when every input port is at defined levels; otherwise it is refused and names a port that is not (the
refusal is the model's treatment of R115, log 2). -/
def Obligations.StepCompletesWhenInputsAreDriven : Prop :=
  ∀ s : State,
    ((∃ t, step s = .next t) ↔
      s.inputs.op ≠ none ∧ s.inputs.a ≠ none ∧ s.inputs.b ≠ none ∧ s.inputs.cin ≠ none) ∧
    ∀ r, step s = .refused r →
      (r = .inputUndriven .op ∧ s.inputs.op = none) ∨ (r = .inputUndriven .a ∧ s.inputs.a = none) ∨
        (r = .inputUndriven .b ∧ s.inputs.b = none) ∨ (r = .inputUndriven .cin ∧ s.inputs.cin = none)

/-- R94: no operation faults, traps or is refused, on any operands in any state, and no step faults. -/
def Obligations.NoOperationFaultsOrIsRefused : Prop :=
  (∀ (i : Instr) (s : State), ∃ t, exec i s = .next t) ∧ ∀ (s : State) (f : Fault), step s ≠ .fault f

/-- The frame of ADD, SUB, MUL and DIV, and of a step: the outputs may change; the build-time parameters and the levels at the inputs do
not. There is no other state (no register, no memory: R19, R32). -/
def Obligations.OperationsChangeOnlyTheOutputs : Prop :=
  (∀ (i : Instr) (s t : State), exec i s = .next t → t = { s with outputs := t.outputs }) ∧
    ∀ s t : State, step s = .next t → t = { s with outputs := t.outputs }

/-- R35: a transaction repeated on the same inputs yields the same outputs. -/
def Obligations.TransactionIsIdempotent : Prop :=
  ∀ s t : State, step s = .next t → step t = .next t

/-! ## What each operation computes -/

/-- ADD completes in every state, on every operand and either carry-in: `y` is the wrapped sum, `ovf` is exact, `dz` = 0, nothing else
changes. -/
def Obligations.AddCompletesWithWrappedSum : Prop :=
  ∀ (a b : Byte) (cin : Bit) (s : State),
    exec (.add a b cin) s = .next { s with outputs := some ⟨
      BitVec.ofInt 8 (a.toInt + b.toInt + cin.toNat),
      decide (a.toInt + b.toInt + cin.toNat < -128 ∨ 127 < a.toInt + b.toInt + cin.toNat),
      false⟩ }

/-- SUB completes in every state and on every operand: `y` is the wrapped difference, `ovf` is exact, `dz` = 0, nothing else changes. -/
def Obligations.SubCompletesWithWrappedDifference : Prop :=
  ∀ (a b : Byte) (s : State),
    exec (.sub a b) s = .next { s with outputs := some ⟨
      BitVec.ofInt 8 (a.toInt - b.toInt),
      decide (a.toInt - b.toInt < -128 ∨ 127 < a.toInt - b.toInt),
      false⟩ }

/-- MUL completes in every state and on every operand: `y` is the low byte of the exact product, `ovf` is 0 under SOURCE and exact under
ENHANCED, `dz` = 0, nothing else changes. -/
def Obligations.MulCompletesWithLowByteOfProduct : Prop :=
  ∀ (a b : Byte) (s : State),
    exec (.mul a b) s = .next { s with outputs := some ⟨
      BitVec.ofInt 8 (a.toInt * b.toInt),
      decide (s.config.mulOvf = .enhanced ∧ (a.toInt * b.toInt < -128 ∨ 127 < a.toInt * b.toInt)),
      false⟩ }

/-- DIV by a divisor other than 0 completes in every state: `y` is the quotient truncated toward zero, `ovf` is 1 only for -128 ÷ -1
under ENHANCED, `dz` = 0, nothing else changes. -/
def Obligations.DivCompletesTruncatedTowardZero : Prop :=
  ∀ (a b : Byte) (s : State), b ≠ 0x00#8 →
    exec (.div a b) s = .next { s with outputs := some ⟨
      BitVec.ofInt 8 (a.toInt.tdiv b.toInt),
      decide (s.config.divOvf = .enhanced ∧ a = 0x80#8 ∧ b = 0xFF#8),
      false⟩ }

/-- R85: DIV by 0 completes in every state with `ovf` = 0 and `dz` = 1 under every policy; `y` is 0x00 under ZERO and the datapath's
`quo8` under RAW; the default is ZERO. -/
def Obligations.DivByZeroCompletesByMode : Prop :=
  Config.documentDefaults.div0 = .zero ∧
    ∀ (a : Byte) (s : State),
      (s.config.div0 = .zero →
        exec (.div a 0x00#8) s = .next { s with outputs := some { y := 0x00#8, ovf := false, dz := true } }) ∧
      (s.config.div0 = .raw →
        exec (.div a 0x00#8) s = .next { s with outputs := some { y := quo8 a 0x00#8, ovf := false, dz := true } })

/-- R92: a transaction leaves the state that holds its inputs and UNIT of them as outputs, and nothing of the state before it but the
build-time parameters. -/
def Obligations.TransactionIsUnit : Prop :=
  ∀ (s : State) (op : BitVec 2) (a b : Byte) (cin : Bit),
    s.transact (packRequest op cin a b) = .next
      { config := s.config
        inputs := { op := some op, a := some a, b := some b, cin := some cin }
        outputs := some (unit s.config op a b cin) }

/-- The datapath agrees with integer arithmetic: on every request, in every build, a transaction's outputs are the reference's. -/
def Obligations.DatapathRefinesIntegerArithmetic : Prop :=
  ∀ (s : State) (w : RequestWord),
    s.transact w = .next
      { config := s.config, inputs := Inputs.ofRequest w, outputs := some (reference s.config (decode w)) }

/-! ## The addition primitive -/

/-- R52, counted: a full adder's sum bit and carry-out are the two binary digits of the number of ones at its inputs. -/
def Obligations.FullAdderCountsOnes : Prop :=
  ∀ x y c : Bit,
    (fullAdder x y c).1.toNat + 2 * (fullAdder x y c).2.toNat = x.toNat + y.toNat + c.toNat

/-- R53, counted: the carry into cell i is 1 exactly when the low i bits of the operands and the carry-in sum to 2^i or more. -/
def Obligations.CarryChainCarriesLowBits : Prop :=
  ∀ (x y : Byte) (c0 : Bit) (i : Nat), i ≤ 8 →
    (carryBit x y c0 i = true ↔ 2 ^ i ≤ x.toNat % 2 ^ i + y.toNat % 2 ^ i + c0.toNat)

/-- R55: the overflow bit is not the carry out: `ADD 127, 1, 0` and `ADD -1, 1, 0` tell them apart. -/
def Obligations.OverflowIsNotTheCarryOut : Prop :=
  carryBit 127#8 1#8 false 8 = false ∧ (add8 127#8 1#8 false).v = true ∧
    carryBit 0xFF#8 1#8 false 8 = true ∧ (add8 0xFF#8 1#8 false).v = false ∧
    ∀ s : State, exec (.add 127#8 1#8 false) s = .next (s.settle { y := 0x80#8, ovf := true, dz := false }) ∧
      exec (.add 0xFF#8 1#8 false) s = .next (s.settle { y := 0x00#8, ovf := false, dz := false })

/-- R56: the arithmetic law of ADD8, unsigned, signed, and of its overflow bit. -/
def Obligations.AdditionPrimitiveIsModularSum : Prop :=
  ∀ (x y : Byte) (c0 : Bit),
    (add8 x y c0).s.toNat = (x.toNat + y.toNat + c0.toNat) % 256 ∧
    (add8 x y c0).s = BitVec.ofInt 8 (x.toInt + y.toInt + c0.toNat) ∧
    ((add8 x y c0).v = true ↔ ¬ (-128 ≤ x.toInt + y.toInt + c0.toNat ∧ x.toInt + y.toInt + c0.toNat ≤ 127))

/-! ## Subtraction -/

/-- R61: the arithmetic law of SUB8 and SUB_OVF. -/
def Obligations.SubtractionIsModularDifference : Prop :=
  ∀ a b : Byte,
    (sub8 a b).s = BitVec.ofInt 8 (a.toInt - b.toInt) ∧
    (subOvf (a.getLsbD 7) (b.getLsbD 7) ((sub8 a b).s.getLsbD 7) = true ↔
      ¬ (-128 ≤ a.toInt - b.toInt ∧ a.toInt - b.toInt ≤ 127))

/-- R60: the inner addition's flag and SUB_OVF have the same value on every pair of operands. -/
def Obligations.InnerFlagEqualsSubtractionRule : Prop :=
  ∀ a b : Byte, (sub8 a b).v = subOvf (a.getLsbD 7) (b.getLsbD 7) ((sub8 a b).s.getLsbD 7)

/-! ## Signed-magnitude conversion -/

/-- R63: NEG8 is `0 + ¬x + 1` by the addition primitive, its unsigned law, and its two fixed points. -/
def Obligations.NegationIsModular : Prop :=
  (∀ x : Byte, neg8 x = (add8 0x00#8 (~~~x) true).s ∧ (neg8 x).toNat = (256 - x.toNat) % 256) ∧
    neg8 0x00#8 = 0x00#8 ∧ neg8 0x80#8 = 0x80#8

/-- R64: MAG records the sign bit, negates a negative operand, and its unsigned magnitude is the absolute value, 128 included. -/
def Obligations.MagnitudeIsAbsoluteValue : Prop :=
  ∀ x : Byte,
    (mag x).n = x.getLsbD 7 ∧
    ((mag x).n = true → (mag x).m = neg8 x) ∧ ((mag x).n = false → (mag x).m = x) ∧
    ((mag x).m.toNat : Int) = |x.toInt|

/-- R66: RESTORE negates when told to, and keeps the magnitude otherwise. -/
def Obligations.RestoreNegatesOnDemand : Prop :=
  ∀ m : Byte, restore m true = neg8 m ∧ restore m true = BitVec.ofInt 8 (-(m.toNat : Int)) ∧ restore m false = m

/-! ## Multiplication -/

/-- R70: the running total starts at 0, each step adds a partial product with carry-in 0, and after i steps it is the multiplicand times
the low i bits of the multiplier, modulo 256; after 8, the whole product. -/
def Obligations.MultiplierAccumulatesLowBits : Prop :=
  ∀ ma mb : Byte,
    accumulate ma mb 0 = 0x00#8 ∧
    (∀ i, i < 8 → accumulate ma mb (i + 1) = (add8 (accumulate ma mb i) (partialProduct ma mb i) false).s) ∧
    (∀ i, i ≤ 8 → (accumulate ma mb i).toNat = ma.toNat * (mb.toNat % 2 ^ i) % 256) ∧
    (accumulate ma mb 8).toNat = ma.toNat * mb.toNat % 256

/-- R72: `prod8` is the low byte of the exact signed product. -/
def Obligations.ProductIsLowByteOfExact : Prop :=
  ∀ a b : Byte, prod8 a b = BitVec.ofInt 8 (a.toInt * b.toInt)

/-- R73: the 16-bit product is exact, its range is [-16256, 16384], and its low byte is `prod8`. -/
def Obligations.FullProductIsExact : Prop :=
  ∀ a b : Byte,
    (p16 a b).toInt = a.toInt * b.toInt ∧
    -16256 ≤ (p16 a b).toInt ∧ (p16 a b).toInt ≤ 16384 ∧
    (p16 a b).extractLsb' 0 8 = prod8 a b

/-- R74: MUL's overflow is 0 under SOURCE, exact under ENHANCED; the equivalent test on `p16[15:7]`; the default is SOURCE. -/
def Obligations.MulOverflowFollowsPolicy : Prop :=
  Config.documentDefaults.mulOvf = .source ∧
    ∀ a b : Byte,
      mulOvf .source a b = false ∧
      (mulOvf .enhanced a b = true ↔ (p16 a b).toInt < -128 ∨ (p16 a b).toInt > 127) ∧
      (mulOvf .enhanced a b = true ↔ a.toInt * b.toInt < -128 ∨ a.toInt * b.toInt > 127) ∧
      (mulOvf .enhanced a b = true ↔
        (p16 a b).extractLsb' 7 9 ≠ 0b000000000#9 ∧ (p16 a b).extractLsb' 7 9 ≠ 0b111111111#9)

/-! ## Division -/

/-- R81: for a divisor magnitude other than 0, every trial is exact, the kept partial remainder stays below the divisor, and the eight
trials yield the quotient and the remainder of the magnitudes. -/
def Obligations.DividerTrialsAreExact : Prop :=
  ∀ (ma mb : Byte), mb ≠ 0x00#8 → mb.toNat ≤ 128 → ma.toNat ≤ 128 →
    (∀ k, k < 8 →
      ((trialDiff mb (workReg ma mb k)).getLsbD 7 = true ↔
        (leftHalf (workReg ma mb k)).toNat < mb.toNat) ∧
      (leftHalf (trialKeep mb (workReg ma mb k))).toNat < mb.toNat ∧
      (trialKeep mb (workReg ma mb k)).getLsbD 14 = false) ∧
    (leftHalf (workReg ma mb 0)).toNat = (ma.getLsbD 7).toNat ∧
    (∀ k, k < 7 →
      (leftHalf (workReg ma mb (k + 1))).toNat =
        2 * (leftHalf (trialKeep mb (workReg ma mb k))).toNat + (ma.getLsbD (6 - k)).toNat) ∧
    (quotientMag ma mb).toNat = ma.toNat / mb.toNat ∧
    (leftHalf (trialKeep mb (workReg ma mb 7))).toNat = ma.toNat % mb.toNat

/-- R82: for b other than 0, `quo8` is the quotient truncated toward zero, and -128 ÷ -1 is the only pair whose true quotient does not
fit; it wraps to 0x80. -/
def Obligations.QuotientIsTruncatedTowardZero : Prop :=
  (∀ a b : Byte, b ≠ 0x00#8 →
    quo8 a b = BitVec.ofInt 8 (a.toInt.tdiv b.toInt) ∧
    (¬ (-128 ≤ a.toInt.tdiv b.toInt ∧ a.toInt.tdiv b.toInt ≤ 127) ↔ a.toInt = -128 ∧ b.toInt = -1)) ∧
    quo8 0x80#8 0xFF#8 = 0x80#8

/-- R83: the left half of `X_7` is the magnitude of the remainder of the truncated division. -/
def Obligations.InternalRemainderIsTruncatedRemainder : Prop :=
  ∀ a b : Byte, b ≠ 0x00#8 →
    (remainderMag (mag a).m (mag b).m).toNat = (mag a).m.toNat % (mag b).m.toNat ∧
    ((remainderMag (mag a).m (mag b).m).toNat : Int) = |a.toInt.tmod b.toInt|

/-- R84: the datapath on a zero divisor: `mb` = 0, every trial difference is the left half, the left half is the dividend magnitude
shifted, the divisor "fits" exactly when its bit 7 is clear, and the raw quotients. -/
def Obligations.RawDivisionByZero : Prop :=
  (mag 0x00#8).m = 0x00#8 ∧ ~~~(mag 0x00#8).m = 0xFF#8 ∧
    ∀ a : Byte,
      (∀ k, k < 8 →
        trialDiff 0x00#8 (workReg (mag a).m 0x00#8 k) = leftHalf (workReg (mag a).m 0x00#8 k) ∧
        (leftHalf (workReg (mag a).m 0x00#8 k)).toNat = (mag a).m.toNat >>> (7 - k) ∧
        (trialFits 0x00#8 (workReg (mag a).m 0x00#8 k) = true ↔
          (leftHalf (workReg (mag a).m 0x00#8 k)).getLsbD 7 = false) ∧
        ((leftHalf (workReg (mag a).m 0x00#8 k)).getLsbD 7 = true ↔ k = 7 ∧ (mag a).m = 0x80#8)) ∧
      (a ≠ 0x80#8 → quotientMag (mag a).m 0x00#8 = 0xFF#8) ∧
      (a = 0x80#8 → quotientMag (mag a).m 0x00#8 = 0xFE#8) ∧
      (0 ≤ a.toInt → quo8 a 0x00#8 = 0xFF#8) ∧
      (-127 ≤ a.toInt ∧ a.toInt ≤ -1 → quo8 a 0x00#8 = 0x01#8) ∧
      (a = 0x80#8 → quo8 a 0x00#8 = 0x02#8)

/-- R86: DIV's overflow is 0 on a zero divisor and under SOURCE; under ENHANCED it is 1 exactly when the quotient exceeds 127, that is
for -128 ÷ -1; the default is SOURCE. -/
def Obligations.DivOverflowFollowsPolicy : Prop :=
  Config.documentDefaults.divOvf = .source ∧
    ∀ a b : Byte,
      (∀ p, divOvf p a 0x00#8 = false) ∧
      divOvf .source a b = false ∧
      (b ≠ 0x00#8 →
        (divOvf .enhanced a b = true ↔ a.toInt.tdiv b.toInt > 127) ∧
        (divOvf .enhanced a b = true ↔ a = 0x80#8 ∧ b = 0xFF#8) ∧
        |a.toInt.tdiv b.toInt| ≤ |a.toInt| ∧ -128 ≤ a.toInt.tdiv b.toInt)

/-! ## Status -/

/-- R91: every transaction's `dz` is 1 exactly when the operation is DIV and the divisor is 0x00. -/
def Obligations.DivisionByZeroStatusIsExact : Prop :=
  ∀ (s : State) (op : BitVec 2) (a b : Byte) (cin : Bit),
    ∃ t o, s.transact (packRequest op cin a b) = .next t ∧ t.outputs = some o ∧
      (o.dz = true ↔ op = 0b11#2 ∧ b = 0x00#8)

/-- R97: no two reportable conditions coincide: every operation completes, `dz` = 1 forces `ovf` = 0, and only DIV can report `dz`. -/
def Obligations.AtMostOneConditionIsReported : Prop :=
  ∀ (i : Instr) (s : State),
    ∃ t o, exec i s = .next t ∧ t.outputs = some o ∧
      (o.dz = true → o.ovf = false ∧ ∃ a, i = .div a 0x00#8)

/-- R93: the tagged view of a completed transaction is DivisionByZero, Overflow or Ok with the value, and the order of the two tests does
not matter. -/
def Obligations.TaggedViewDoesNotDependOnTestOrder : Prop :=
  ∀ (s : State) (w : RequestWord),
    ∃ t o, s.transact w = .next t ∧ t.outputs = some o ∧
      (o.status = .divisionByZero ↔ o.dz = true) ∧
      (o.status = .overflow ↔ o.ovf = true) ∧
      (∀ v, o.status = .ok v ↔ o.dz = false ∧ o.ovf = false ∧ v = o.y) ∧
      o.status = if o.ovf then .overflow else if o.dz then .divisionByZero else .ok o.y

/-- R29: both views of the result carry the same 8 bits, most significant first. -/
def Obligations.BitSequenceCarriesTheResult : Prop :=
  ∀ o : Outputs,
    o.asSequence.1.length = 8 ∧ sequenceValue o.asSequence.1 = o.y.toNat ∧ o.asSequence.2 = o.ovf ∧
      ∀ i, i < 8 → o.asSequence.1[i]? = some (o.y.getLsbD (7 - i))

/-! ## Over time -/

/-- R28: two blocks built alike give a request the same state, whatever happened before. -/
def Obligations.OutputsDependOnInputsAlone : Prop :=
  ∀ s s' : State, s.config = s'.config → ∀ w : RequestWord, s.transact w = s'.transact w

/-- R38, for the sequence on one block: each transaction has the outputs its own inputs determine. (Copies are separate values, log 10.) -/
def Obligations.SequenceGivesEachItsOwnOutputs : Prop :=
  ∀ (s : State) (ws : List RequestWord), s.sampleAll ws = ws.map fun w => some (unitOf s.config w)

/-- R114: a change of any input loses the outputs of the old transaction and changes nothing else; driving the same levels changes
nothing (the model's reading, log 12). -/
def Obligations.InputChangeLosesOutputs : Prop :=
  ∀ (s : State) (i : Inputs),
    (s.inputs ≠ i → s.drive i = { config := s.config, inputs := i, outputs := none }) ∧
      (s.inputs = i → s.drive i = s)

/-- R113: after an input change, holding the inputs for any time gives either no outputs to sample or those of UNIT, and from `T_SETTLE`
on those of UNIT. That a sample before it has no value is how the model admits none (logs 3, 4). -/
def Obligations.HoldingInputsSettlesOnUnit : Prop :=
  ∀ (s : State) (w : RequestWord) (time : Nat), s.inputs ≠ Inputs.ofRequest w →
    ∃ t, (s.present w).hold time = .next t ∧ t.inputs = Inputs.ofRequest w ∧
      (t.outputs = none ∨ t.outputs = some (unitOf s.config w)) ∧
      (Config.tSettle ≤ time → t.outputs = some (unitOf s.config w))

/-! ## Invariants -/

/-- Every step keeps the outputs current: they are what integer arithmetic gives for the levels now at the inputs. So does every change
of the inputs. -/
def Obligations.StepKeepsOutputsCurrent : Prop :=
  (∀ s t : State, s.outputsCurrent → step s = .next t → t.outputsCurrent) ∧
    ∀ (s : State) (i : Inputs), s.outputsCurrent → (s.drive i).outputsCurrent

/-- Every step keeps the two status outputs from being 1 together. -/
def Obligations.StepKeepsOneStatus : Prop :=
  ∀ s t : State, s.oneStatus → step s = .next t → t.oneStatus

/-- R24: however the host drives, steps and power-cycles a block, the three policies stay as built; what it can sample is current, and
the two status outputs are never both 1. That power-up and a power cycle leave the ports not driven is the model's choice (logs 2, 16);
driving reaches all levels from there. -/
def Obligations.ReachableStatesAreSound : Prop :=
  ∀ (c : Config) (s : State), Reachable c s → s.config = c ∧ s.outputsCurrent ∧ s.oneStatus
end

