-- ==== Sys2Proof/Laws/Datapath.lean ====
section
/-! SUPPORT. One lemma for each shared operation of the datapath, which says what its bits are. -/

namespace Sys2Proof.Machine

open Sys2Proof

/-- The bits of a byte put together from bits. -/
theorem byteOfBits_getLsbD (f : Nat → Bit) (i : Nat) :
    (byteOfBits f).getLsbD i = (decide (i < 8) && f i) := by
  have h : (byteOfBits f).getLsbD i = _ :=
    (BitVec.getLsbD_append (n := 1 + 1 + 1 + 1 + 1 + 1 + 1) (m := 1))
  simp only [BitVec.getLsbD_append, BitVec.getLsbD_ofBool] at h
  rw [h]
  rcases (by omega : i = 0 ∨ i = 1 ∨ i = 2 ∨ i = 3 ∨ i = 4 ∨ i = 5 ∨ i = 6 ∨ i = 7 ∨ 8 ≤ i) with
    rfl | rfl | rfl | rfl | rfl | rfl | rfl | rfl | h8
  all_goals simp
  rw [if_neg (by omega), if_neg (by omega), if_neg (by omega), if_neg (by omega), if_neg (by omega),
    if_neg (by omega), if_neg (by omega), decide_eq_false (by omega : ¬ i < 8), Bool.false_and]
  simp
  omega

/-- Bit i of a sum is the sum bit of cell i. -/
theorem add8_s_getLsbD (x y : Byte) (c0 : Bit) (i : Nat) (h : i < 8) :
    (add8 x y c0).s.getLsbD i = sumBit x y c0 i := by
  rw [add8, byteOfBits_getLsbD, decide_eq_true h, Bool.true_and]

/-- The overflow bit of a sum is the sign rule on its signs. -/
theorem add8_v (x y : Byte) (c0 : Bit) :
    (add8 x y c0).v = addOvf (x.getLsbD 7) (y.getLsbD 7) ((add8 x y c0).s.getLsbD 7) := rfl

@[simp] theorem carryBit_zero (x y : Byte) (c0 : Bit) : carryBit x y c0 0 = c0 := rfl

theorem carryBit_succ (x y : Byte) (c0 : Bit) (i : Nat) :
    carryBit x y c0 (i + 1) =
      ((x.getLsbD i && y.getLsbD i) || (carryBit x y c0 i && (x.getLsbD i ^^ y.getLsbD i))) := rfl

theorem sumBit_eq (x y : Byte) (c0 : Bit) (i : Nat) :
    sumBit x y c0 i = (x.getLsbD i ^^ y.getLsbD i ^^ carryBit x y c0 i) := rfl

/-- Subtraction is the addition of the complement with carry-in 1. -/
theorem sub8_eq (a b : Byte) : sub8 a b = add8 a (~~~b) true := rfl

/-- Negation is the sum of the complement and 1. -/
theorem neg8_eq (x : Byte) : neg8 x = (add8 0x00#8 (~~~x) true).s := rfl

/-- The magnitude's sign flag is the sign bit. -/
@[simp] theorem mag_n (x : Byte) : (mag x).n = x.getLsbD 7 := rfl

theorem mag_m (x : Byte) : (mag x).m = if x.getLsbD 7 then neg8 x else x := rfl

theorem restore_true (m : Byte) : restore m true = neg8 m := rfl

@[simp] theorem restore_false (m : Byte) : restore m false = m := rfl

@[simp] theorem accumulate_zero (ma mb : Byte) : accumulate ma mb 0 = 0x00#8 := rfl

theorem accumulate_succ (ma mb : Byte) (i : Nat) :
    accumulate ma mb (i + 1) = (add8 (accumulate ma mb i) (partialProduct ma mb i) false).s := rfl

@[simp] theorem workReg_zero (ma mb : Byte) : workReg ma mb 0 = ma.setWidth 15 := rfl

theorem workReg_succ (ma mb : Byte) (k : Nat) :
    workReg ma mb (k + 1) = trialKeep mb (workReg ma mb k) <<< 1 := rfl

/-- A trial that fits replaces the left half by the difference; one that does not leaves the register. -/
theorem trialKeep_cases (mb : Byte) (w : WorkReg) :
    (trialFits mb w = true ∧ (trialDiff mb w).getLsbD 7 = false ∧ trialKeep mb w = trialDiff mb w ++ rightHalf w) ∨
      (trialFits mb w = false ∧ (trialDiff mb w).getLsbD 7 = true ∧ trialKeep mb w = w) := by
  cases h : (trialDiff mb w).getLsbD 7
  · have hf : trialFits mb w = true := by rw [trialFits, h]; rfl
    exact .inl ⟨hf, rfl, if_pos hf⟩
  · have hf : trialFits mb w = false := by rw [trialFits, h]; rfl
    exact .inr ⟨hf, rfl, by rw [trialKeep, hf]; rfl⟩

/-- Quotient bit 7 - k is the k-th trial bit. -/
theorem quotientMag_getLsbD (ma mb : Byte) (k : Nat) (h : k < 8) :
    (quotientMag ma mb).getLsbD (7 - k) = trialFits mb (workReg ma mb k) := by
  rw [quotientMag, byteOfBits_getLsbD, show 7 - (7 - k) = k by omega, decide_eq_true (by omega : 7 - k < 8),
    Bool.true_and]

/-- SOURCE never reports a product. -/
@[simp] theorem mulOvf_source (a b : Byte) : mulOvf .source a b = false := rfl

theorem mulOvf_enhanced (a b : Byte) :
    mulOvf .enhanced a b = decide ((p16 a b).toInt < -128 ∨ (p16 a b).toInt > 127) := rfl

/-- A zero divisor never reports overflow. -/
@[simp] theorem divOvf_zero (policy : OvfPolicy) (a : Byte) : divOvf policy a 0x00#8 = false := if_pos rfl

/-- SOURCE never reports a quotient. -/
@[simp] theorem divOvf_source (a b : Byte) : divOvf .source a b = false := ite_self _

theorem divOvf_enhanced {a b : Byte} (h : b ≠ 0x00#8) :
    divOvf .enhanced a b = decide (a.toInt.tdiv b.toInt > 127) := if_neg h

@[simp] theorem divisionByZero_iff (b : Byte) : divisionByZero b = true ↔ b = 0x00#8 := decide_eq_true_iff

end Sys2Proof.Machine
end

