-- ==== Sys2Proof/Laws/Encoding.lean ====
section
/-! SUPPORT. Packing a request word and reading its fields back; the operator codes. -/

namespace Sys2Proof

/-- The bits of a request word, field by field. -/
theorem packRequest_getLsbD (op : BitVec 2) (cin : Bit) (a b : Byte) (i : Nat) :
    (packRequest op cin a b).getLsbD i =
      if i < 8 then b.getLsbD i
      else if i < 16 then a.getLsbD (i - 8)
      else if i = 16 then cin
      else op.getLsbD (i - 17) := by
  have h : (packRequest op cin a b).getLsbD i = _ := BitVec.getLsbD_append (n := 2 + 1 + 8) (m := 8)
  simp only [BitVec.getLsbD_append, BitVec.getLsbD_ofBool] at h
  rw [h]
  rcases (by omega : i < 8 ∨ (8 ≤ i ∧ i < 16) ∨ i = 16 ∨ 17 ≤ i) with h1 | h1 | rfl | h1
  · simp [h1]
  · simp [show ¬ i < 8 by omega, show i - 8 < 8 by omega, h1.2]
  · simp
  · simp [show ¬ i < 8 by omega, show ¬ i - 8 < 8 by omega, show ¬ i - 8 - 8 < 1 by omega,
      show ¬ i < 16 by omega, show i ≠ 16 by omega, show i - 8 - 8 - 1 = i - 17 by omega]

@[simp] theorem opField_packRequest (op : BitVec 2) (cin : Bit) (a b : Byte) :
    opField (packRequest op cin a b) = op := by
  apply BitVec.eq_of_getLsbD_eq
  intro i hi
  rw [opField, BitVec.getLsbD_extractLsb', packRequest_getLsbD, if_neg (by omega), if_neg (by omega),
    if_neg (by omega), decide_eq_true hi, Bool.true_and, show 17 + i - 17 = i by omega]

@[simp] theorem cinField_packRequest (op : BitVec 2) (cin : Bit) (a b : Byte) :
    cinField (packRequest op cin a b) = cin := by
  rw [cinField, packRequest_getLsbD]
  rfl

@[simp] theorem aField_packRequest (op : BitVec 2) (cin : Bit) (a b : Byte) :
    aField (packRequest op cin a b) = a := by
  apply BitVec.eq_of_getLsbD_eq
  intro i hi
  rw [aField, BitVec.getLsbD_extractLsb', packRequest_getLsbD, if_neg (by omega), if_pos (by omega),
    decide_eq_true hi, Bool.true_and, show 8 + i - 8 = i by omega]

@[simp] theorem bField_packRequest (op : BitVec 2) (cin : Bit) (a b : Byte) :
    bField (packRequest op cin a b) = b := by
  apply BitVec.eq_of_getLsbD_eq
  intro i hi
  rw [bField, BitVec.getLsbD_extractLsb', packRequest_getLsbD, if_pos (by omega), decide_eq_true hi,
    Bool.true_and, Nat.zero_add]

/-- A request word is the packing of its fields. -/
@[simp] theorem packRequest_fields (w : RequestWord) :
    packRequest (opField w) (cinField w) (aField w) (bField w) = w := by
  apply BitVec.eq_of_getLsbD_eq
  intro i hi
  rw [packRequest_getLsbD, opField, cinField, aField, bField]
  split
  · rename_i h
    rw [BitVec.getLsbD_extractLsb', decide_eq_true h, Bool.true_and, Nat.zero_add]
  · split
    · rw [BitVec.getLsbD_extractLsb', decide_eq_true (by omega), Bool.true_and, show 8 + (i - 8) = i by omega]
    · split
      · rename_i h
        rw [h]
      · rw [BitVec.getLsbD_extractLsb', decide_eq_true (by omega), Bool.true_and,
          show 17 + (i - 17) = i by omega]

@[simp] theorem Operator.ofCode_code (o : Operator) : Operator.ofCode o.code = o := by
  cases o <;> rfl

@[simp] theorem Operator.code_ofCode (c : BitVec 2) : (Operator.ofCode c).code = c := by
  revert c; decide

namespace Machine

/-- Driving the ports from a request word forms that request word. -/
@[simp] theorem Inputs.request_ofRequest (w : RequestWord) : (Inputs.ofRequest w).request = .ok w := by
  simp [Inputs.request, Inputs.ofRequest]

/-- The ports form a request word exactly when they are at the levels that word packs. -/
theorem Inputs.request_eq_ok_iff (i : Inputs) (w : RequestWord) :
    i.request = .ok w ↔ i = Inputs.ofRequest w := by
  constructor
  · obtain ⟨op, a, b, cin⟩ := i
    cases op <;> cases a <;> cases b <;> cases cin <;> simp [Inputs.request, Inputs.ofRequest]
    rintro rfl
    simp
  · rintro rfl
    simp

end Machine

end Sys2Proof
end

