-- ==== Sys2Proof/Laws/PerInstr.lean ====
section
/-! SUPPORT. Statements about every instruction as text, one lemma per constructor. -/

namespace Sys2Proof.Laws.OpcodeField

open Sys2Proof

/-- The operation an instruction stands for. -/
def operator : Instr → Operator
  | .add _ _ _ => .add
  | .sub _ _ => .sub
  | .mul _ _ => .mul
  | .div _ _ => .div

/-- The request word of an instruction carries the instruction's code in its `op` field (spec/30_encoding.md R43, R44). -/
def Statement (i : Instr) : Prop := opField (encode i) = (operator i).code

theorem add (a b : Byte) (cin : Bit) : Statement (.add a b cin) := opField_packRequest _ _ _ _

theorem sub (a b : Byte) : Statement (.sub a b) := opField_packRequest _ _ _ _

theorem mul (a b : Byte) : Statement (.mul a b) := opField_packRequest _ _ _ _

theorem div (a b : Byte) : Statement (.div a b) := opField_packRequest _ _ _ _

end Sys2Proof.Laws.OpcodeField
end

