-- ==== Sys2Proof/Laws/State.lean ====
section
/-! SUPPORT. One lemma per field of State for each operation that builds a state, so that no later proof unfolds a record update. -/

namespace Sys2Proof.Machine

open Sys2Proof

@[simp] theorem State.settle_config (s : State) (o : Outputs) : (s.settle o).config = s.config := rfl
@[simp] theorem State.settle_inputs (s : State) (o : Outputs) : (s.settle o).inputs = s.inputs := rfl
@[simp] theorem State.settle_outputs (s : State) (o : Outputs) : (s.settle o).outputs = some o := rfl

@[simp] theorem State.powerUp_config (c : Config) : (State.powerUp c).config = c := rfl
@[simp] theorem State.powerUp_inputs (c : Config) : (State.powerUp c).inputs = Inputs.undriven := rfl
@[simp] theorem State.powerUp_outputs (c : Config) : (State.powerUp c).outputs = none := rfl

@[simp] theorem State.powerCycle_config (s : State) : s.powerCycle.config = s.config := rfl
@[simp] theorem State.powerCycle_inputs (s : State) : s.powerCycle.inputs = Inputs.undriven := rfl
@[simp] theorem State.powerCycle_outputs (s : State) : s.powerCycle.outputs = none := rfl

@[simp] theorem State.reset_config : State.reset.config = Config.documentDefaults := rfl
@[simp] theorem State.reset_inputs : State.reset.inputs = Inputs.undriven := rfl
@[simp] theorem State.reset_outputs : State.reset.outputs = none := rfl

@[simp] theorem State.drive_config (s : State) (i : Inputs) : (s.drive i).config = s.config := by
  unfold State.drive; split <;> rfl

@[simp] theorem State.drive_inputs (s : State) (i : Inputs) : (s.drive i).inputs = i := by
  unfold State.drive; split
  · assumption
  · rfl

theorem State.drive_same {s : State} {i : Inputs} (h : s.inputs = i) : s.drive i = s := if_pos h

theorem State.drive_changed {s : State} {i : Inputs} (h : s.inputs ≠ i) :
    s.drive i = { s with inputs := i, outputs := none } := if_neg h

@[simp] theorem State.present_config (s : State) (w : RequestWord) : (s.present w).config = s.config := by
  simp [State.present]

@[simp] theorem State.present_inputs (s : State) (w : RequestWord) : (s.present w).inputs = Inputs.ofRequest w := by
  simp [State.present]

/-- Settling again replaces the outputs and nothing else. -/
@[simp] theorem State.settle_settle (s : State) (o p : Outputs) : (s.settle o).settle p = s.settle p := rfl

/-- Once the outputs have settled, nothing of the state before the inputs were driven is left but the configuration. -/
theorem State.drive_settle (s : State) (i : Inputs) (o : Outputs) :
    (s.drive i).settle o = { config := s.config, inputs := i, outputs := some o } := by
  by_cases h : s.inputs = i
  · subst h; rw [State.drive_same rfl]; rfl
  · rw [State.drive_changed h]; rfl

end Sys2Proof.Machine
end

