-- ==== Sys2Proof/Laws/Step.lean ====
section
/-! SUPPORT. What exec and step can do, said once: later proofs cite these and do not unfold the step. -/

namespace Sys2Proof.Machine

open Sys2Proof

theorem exec_add (a b : Byte) (cin : Bit) (s : State) :
    exec (.add a b cin) s = .next (s.settle ⟨(add8 a b cin).s, (add8 a b cin).v, false⟩) := rfl

theorem exec_sub (a b : Byte) (s : State) :
    exec (.sub a b) s = .next (s.settle
      ⟨(sub8 a b).s, subOvf (a.getLsbD 7) (b.getLsbD 7) ((sub8 a b).s.getLsbD 7), false⟩) := rfl

theorem exec_mul (a b : Byte) (s : State) :
    exec (.mul a b) s = .next (s.settle ⟨prod8 a b, mulOvf s.config.mulOvf a b, false⟩) := rfl

theorem exec_div (a b : Byte) (s : State) :
    exec (.div a b) s = .next (s.settle
      ⟨divResult s.config.div0 a b, divOvf s.config.divOvf a b, divisionByZero b⟩) := rfl

/-- An instruction settles the outputs and does nothing else. -/
theorem exec_settles (i : Instr) (s : State) : ∃ o, exec i s = .next (s.settle o) := by
  cases i <;> exact ⟨_, rfl⟩

/-- What an instruction computes depends on the configuration alone, not on the rest of the state. -/
theorem exec_congr (i : Instr) {s t : State} (h : s.config = t.config) :
    ∃ o, exec i s = .next (s.settle o) ∧ exec i t = .next (t.settle o) := by
  cases i
  · exact ⟨_, rfl, rfl⟩
  · exact ⟨_, rfl, rfl⟩
  · exact ⟨_, rfl, by rw [exec_mul, h]⟩
  · exact ⟨_, rfl, by rw [exec_div, h]⟩

theorem step_of_request {s : State} {w : RequestWord} (h : s.inputs.request = .ok w) :
    step s = exec (decode w) s := by
  simp [step, h]

theorem step_of_undriven {s : State} {p : Port} (h : s.inputs.request = .error p) :
    step s = .refused (.inputUndriven p) := by
  simp [step, h]

/-- Everything a step can do: it settles the outputs of the request at the ports, or refuses an undriven port. -/
theorem step_cases (s : State) :
    (∃ w o, s.inputs.request = .ok w ∧ exec (decode w) s = .next (s.settle o) ∧ step s = .next (s.settle o)) ∨
      (∃ p, s.inputs.request = .error p ∧ step s = .refused (.inputUndriven p)) := by
  cases h : s.inputs.request with
  | ok w =>
    obtain ⟨o, ho⟩ := exec_settles (decode w) s
    exact .inl ⟨w, o, rfl, ho, by rw [step_of_request h, ho]⟩
  | error p => exact .inr ⟨p, rfl, step_of_undriven h⟩

/-- A transaction runs the decoded request on the state that presents it. -/
theorem State.transact_eq (s : State) (w : RequestWord) : s.transact w = exec (decode w) (s.present w) :=
  step_of_request (by simp)

/-- Holding the inputs either completes the transaction or leaves the state. -/
theorem State.hold_cases (s : State) (t : Nat) :
    (Config.tSettle ≤ t ∧ s.hold t = step s) ∨ (t < Config.tSettle ∧ s.hold t = .next s) := by
  by_cases h : Config.tSettle ≤ t
  · exact .inl ⟨h, if_pos h⟩
  · exact .inr ⟨Nat.lt_of_not_le h, if_neg h⟩

end Sys2Proof.Machine
end

