-- ==== Sys2Proof/Tests/Slice0.lean ====
section
/-! SUPPORT. The model's own tests. Expected values are those of spec/95_test_vectors.md and of the rules' corner cases, never the
model's own answers. Then one witness for the hypotheses of each statement that has any. -/

namespace Sys2Proof.Tests

open Sys2Proof Sys2Proof.Machine

/-! ## Well-formedness: each check refuses an ill-formed term -/

theorem test_wf_decimal_bounds :
    (Literal.decimal (-128)).wellFormed = true ∧ (Literal.decimal 127).wellFormed = true ∧
      (Literal.decimal (-129)).wellFormed = false ∧ (Literal.decimal 128).wellFormed = false := by decide

theorem test_wf_patterns :
    (Literal.hex 255).wellFormed = true ∧ (Literal.hex 256).wellFormed = false ∧
      (Literal.binary 255).wellFormed = true ∧ (Literal.binary 256).wellFormed = false := by decide

theorem test_wf_carry :
    (Literal.decimal 1).wellFormedCarry = true ∧ (Literal.decimal 2).wellFormedCarry = false ∧
      (Literal.hex 1).wellFormedCarry = false ∧ (Literal.binary 1).wellFormedCarry = false := by decide

theorem test_wf_statements_refuse_bad_operands :
    (Stmt.add (.decimal 1) (.decimal 1) (.decimal 2)).wellFormed = false ∧
      (Stmt.sub (.decimal 128) (.decimal 0)).wellFormed = false ∧
      (Stmt.mul (.decimal 0) (.hex 256)).wellFormed = false ∧
      (Stmt.div (.decimal 0) (.binary 256)).wellFormed = false ∧
      (Stmt.addNoCarry (.decimal (-129)) (.decimal 0)).wellFormed = false ∧
      (Stmt.inc (.decimal 128)).wellFormed = false ∧ (Stmt.dec (.hex 256)).wellFormed = false ∧
      (Stmt.neg (.decimal 128)).wellFormed = false := by decide

/-! ## Decoding: words written out from R43 as op, cin, a, b -/

theorem test_decode_add : decode 0b00_1_10000000_01111111#19 = .add 0x80#8 0x7F#8 true := by decide
theorem test_decode_sub : decode 0b01_0_00000101_00000011#19 = .sub 5#8 3#8 := by decide
theorem test_decode_mul : decode 0b10_1_11111001_00000011#19 = .mul 0xF9#8 3#8 := by decide
theorem test_decode_div : decode 0b11_0_00001111_00000011#19 = .div 15#8 3#8 := by decide

theorem test_decode_table_word :
    decodeTableWord 24 0x60F03 = some (.div 15#8 3#8) ∧ decodeTableWord 24 0x80000 = none ∧
      decodeNat 0x80000 = .error (.widerThanRequestWord 0x80000) := by decide

theorem test_encode_writes_zero_carry : encode (.sub 5#8 3#8) = 0x20503#19 := by decide

theorem test_fixed_widths_of_R8 : Config.bits = 8 ∧ Config.wregWidth = 15 ∧ Config.iter = 8 := by decide

/-! ## One transaction each: 95_test_vectors.md sections 2.1 to 2.5 -/

/-- The block built with every enhancement, and with the datapath value on division by zero. -/
def enhanced : State := State.powerUp { mulOvf := .enhanced, divOvf := .enhanced, div0 := .raw }

/-- What the host samples after presenting `w` to `s`. -/
def sample (s : State) (w : RequestWord) : Option Outputs := (s.afterTransaction w).outputs

theorem test_add_overflows_without_carry_out :
    sample State.reset 0x07F01#19 = some { y := 0x80#8, ovf := true, dz := false } := by decide

theorem test_add_takes_the_carry_in :
    sample State.reset 0x18080#19 = some { y := 0x01#8, ovf := true, dz := false } := by decide

theorem test_sub_wraps :
    sample State.reset 0x28001#19 = some { y := 0x7F#8, ovf := true, dz := false } := by decide

theorem test_sub_ignores_the_carry_in :
    sample State.reset 0x30503#19 = some { y := 0x02#8, ovf := false, dz := false } := by decide

theorem test_mul_restores_the_sign :
    sample State.reset 0x4F903#19 = some { y := 0xEB#8, ovf := false, dz := false } := by decide +kernel

theorem test_mul_enhanced_flags_the_unrepresentable_product :
    sample enhanced 0x480FF#19 = some { y := 0x80#8, ovf := true, dz := false } := by decide +kernel

theorem test_div_truncates_toward_zero :
    sample State.reset 0x6F902#19 = some { y := 0xFD#8, ovf := false, dz := false } := by decide +kernel

theorem test_div_raw_by_zero :
    sample enhanced 0x68000#19 = some { y := 0x02#8, ovf := false, dz := true } ∧
      sample State.reset 0x68000#19 = some { y := 0x00#8, ovf := false, dz := true } := by decide +kernel

/-! ## Inside the datapath: the traces of 95_test_vectors.md -/

theorem test_magnitudes :
    mag 0x80#8 = { m := 0x80#8, n := true } ∧ mag 0x81#8 = { m := 0x7F#8, n := true } ∧
      mag 0x05#8 = { m := 0x05#8, n := false } ∧ neg8 0x05#8 = 0xFB#8 := by decide

theorem test_mul_running_totals :
    [1, 2, 3, 8].map (accumulate 5#8 3#8) = [0x05#8, 0x0F#8, 0x0F#8, 0x0F#8] := by decide +kernel

theorem test_div_trials_of_100_by_7 :
    (List.range 8).map (fun k => trialDiff 7#8 (workReg 100#8 7#8 k)) =
        [0xF9#8, 0xFA#8, 0xFC#8, 0xFF#8, 0x05#8, 0x04#8, 0x01#8, 0xFB#8] ∧
      quotientMag 100#8 7#8 = 0x0E#8 ∧ remainderMag 100#8 7#8 = 0x02#8 := by decide +kernel

/-! ## The ports and the assembly -/

theorem test_undriven_input_is_refused :
    (step State.reset matches .refused (.inputUndriven .op)) = true := by decide

theorem test_assemble_call_form :
    (parseTokens [.keyword .add, .openParen, .literal (.decimal 127), .comma, .literal (.decimal 1), .comma,
        .literal (.decimal 0), .closeParen]).bind assemble = some 0x07F01#19 := by decide

theorem test_assemble_pseudo_operation :
    (parseTokens [.keyword .NEG, .literal (.decimal (-128))]).bind assemble = some 0x20080#19 := by decide

theorem test_status_view :
    ({ y := 0x00#8, ovf := false, dz := true } : Outputs).status = .divisionByZero ∧
      ({ y := 0x80#8, ovf := true, dz := false } : Outputs).status = .overflow ∧
      ({ y := 0x08#8, ovf := false, dz := false } : Outputs).status = .ok 0x08#8 := by decide

/-! ## Witnesses: states and operands that meet the hypotheses of the statements -/

/-- A block whose host presents `DIV 15, 3`. -/
def presented : State := State.reset.present 0x60F03#19

/-- The same block after the transaction. -/
def settled : State := presented.settle { y := 5#8, ovf := false, dz := false }

theorem step_presented : step presented = .next settled := by rfl

theorem test_witness_MatchAndMaskSelectTheOperation :
    (0x00000#19 &&& 0x60000#19 = 0x00000#19 ∧ 0x1FFFF#19 &&& 0x60000#19 = 0x00000#19) ∧
      (0x20000#19 &&& 0x60000#19 = 0x20000#19 ∧ 0x3FFFF#19 &&& 0x60000#19 = 0x20000#19) ∧
      (0x40000#19 &&& 0x60000#19 = 0x40000#19 ∧ 0x5FFFF#19 &&& 0x60000#19 = 0x40000#19) ∧
      (0x60000#19 &&& 0x60000#19 = 0x60000#19 ∧ 0x7FFFF#19 &&& 0x60000#19 = 0x60000#19) := by decide

theorem test_witness_OnlyNineteenBitNumbersDecode :
    2 ^ 19 ≤ 2 ^ 19 ∧ (0x7FFFF#19).toNat + 1 = 2 ^ 19 := by decide

theorem test_witness_CarryInIsReadByAddOnly :
    (0b01#2 ≠ 0b00#2 ∧ 0b11#2 ≠ 0b00#2) := by decide

theorem test_witness_AssemblyFormsGiveTheTablesWords :
    ((Literal.decimal (-128)).wellFormed = true ∧ (Literal.decimal 127).wellFormed = true ∧
        (Literal.hex 255).wellFormed = true ∧ (Literal.binary 0).wellFormed = true) ∧
      ((Literal.decimal 0).wellFormedCarry = true ∧ (Literal.decimal 1).wellFormedCarry = true) ∧
      (-128 ≤ (-128 : Int) ∧ (-128 : Int) ≤ 127) ∧ (-128 ≤ (127 : Int) ∧ (127 : Int) ≤ 127) ∧
      (0 < 256 ∧ 255 < 256) := by decide

theorem test_witness_StepRunsTheDecodedRequest :
    presented.inputs = { op := some 0b11#2, a := some 15#8, b := some 3#8, cin := some false } := by decide

theorem test_witness_FetchWordRunsTheTablesInstruction :
    decodeTableWord 24 0x7FFFF = some (.div 0xFF#8 0xFF#8) ∧ decodeTableWord 19 0 = some (.add 0#8 0#8 false) := by
  decide

theorem test_witness_StepCompletesWhenInputsAreDriven :
    step State.reset = .refused (.inputUndriven .op) ∧
      step { State.reset with inputs := { presented.inputs with a := none } } = .refused (.inputUndriven .a) ∧
      step { State.reset with inputs := { presented.inputs with b := none } } = .refused (.inputUndriven .b) ∧
      step { State.reset with inputs := { presented.inputs with cin := none } } = .refused (.inputUndriven .cin) :=
  ⟨rfl, rfl, rfl, rfl⟩

theorem test_witness_OperationsChangeOnlyTheOutputs :
    exec (.div 15#8 3#8) presented = .next settled ∧ step presented = .next settled := ⟨by rfl, step_presented⟩

theorem test_witness_TransactionIsIdempotent : step presented = .next settled := step_presented

theorem test_witness_DivCompletesTruncatedTowardZero : 0x01#8 ≠ 0x00#8 ∧ 0xFF#8 ≠ 0x00#8 := by decide

theorem test_witness_DivByZeroCompletesByMode :
    State.reset.config.div0 = .zero ∧ enhanced.config.div0 = .raw := by decide

theorem test_witness_CarryChainCarriesLowBits :
    (0 ≤ 8 ∧ 8 ≤ 8) ∧ carryBit 0xFF#8 0x00#8 true 0 = true ∧ carryBit 0xFF#8 0x00#8 true 8 = true ∧
      carryBit 0xFF#8 0x00#8 false 8 = false := by decide

theorem test_witness_MagnitudeIsAbsoluteValue : (mag 0x80#8).n = true ∧ (mag 0x7F#8).n = false := by decide

theorem test_witness_MultiplierAccumulatesLowBits : (0 < 8 ∧ 7 < 8) ∧ (0 ≤ 8 ∧ 8 ≤ 8) := by decide

theorem test_witness_DividerTrialsAreExact :
    (0x80#8 ≠ 0x00#8 ∧ (0x80#8).toNat ≤ 128 ∧ (0x80#8).toNat ≤ 128) ∧
      (0x01#8 ≠ 0x00#8 ∧ (0x01#8).toNat ≤ 128 ∧ (0x00#8).toNat ≤ 128) ∧ 7 < 8 ∧ 6 < 7 := by decide

theorem test_witness_QuotientIsTruncatedTowardZero :
    0x01#8 ≠ 0x00#8 ∧ 0x80#8 ≠ 0x00#8 ∧ (0x80#8).toInt = -128 ∧ (0xFF#8).toInt = -1 := by decide

theorem test_witness_InternalRemainderIsTruncatedRemainder : 0x01#8 ≠ 0x00#8 ∧ 0x80#8 ≠ 0x00#8 := by decide

theorem test_witness_RawDivisionByZero :
    (0x81#8 ≠ 0x80#8 ∧ -127 ≤ (0x81#8).toInt ∧ (0x81#8).toInt ≤ -1) ∧ 0 ≤ (0x00#8).toInt ∧
      -127 ≤ (0xFF#8).toInt ∧ (0xFF#8).toInt ≤ -1 ∧ 0 ≤ (0x7F#8).toInt ∧ 7 < 8 := by decide

theorem test_witness_DivOverflowFollowsPolicy :
    0xFF#8 ≠ 0x00#8 ∧ divOvf .enhanced 0x80#8 0xFF#8 = true ∧ divOvf .enhanced 0x80#8 0x01#8 = false := by decide

theorem test_witness_AtMostOneConditionIsReported :
    exec (.div 5#8 0x00#8) presented = .next (presented.settle { y := 0x00#8, ovf := false, dz := true }) := by rfl

theorem test_witness_BitSequenceCarriesTheResult : 0 < 8 ∧ 7 < 8 := by decide

theorem test_witness_OutputsDependOnInputsAlone : State.reset.config = settled.config ∧ State.reset ≠ settled := by
  decide

theorem test_witness_InputChangeLosesOutputs :
    settled.inputs ≠ Inputs.ofRequest 0x60F02#19 ∧ settled.inputs = Inputs.ofRequest 0x60F03#19 := by decide

theorem test_witness_HoldingInputsSettlesOnUnit :
    State.reset.inputs ≠ Inputs.ofRequest 0x60F03#19 ∧ Config.tSettle ≤ Config.tSettle := ⟨by decide, Nat.le_refl _⟩

theorem test_witness_StepKeepsOutputsCurrent : presented.outputsCurrent ∧ step presented = .next settled :=
  ⟨fun _ h => (nomatch h), step_presented⟩

theorem test_witness_StepKeepsOneStatus : presented.oneStatus ∧ step presented = .next settled :=
  ⟨fun _ h => (nomatch h), step_presented⟩

theorem test_witness_ReachableStatesAreSound : Reachable Config.documentDefaults settled :=
  .step (.drive (Inputs.ofRequest 0x60F03#19) .powerUp) step_presented

end Sys2Proof.Tests
end

section
/-! Scope and reset: the ports of a block that nothing drives (spec/00_scope.md R8, spec/70_reset_and_hazards.md R110, R111). -/

namespace Sys2Proof.Proofs.Scope

open Sys2Proof Sys2Proof.Machine

@[simp] theorem undriven_op : Inputs.undriven.op = none := rfl
@[simp] theorem undriven_a : Inputs.undriven.a = none := rfl
@[simp] theorem undriven_b : Inputs.undriven.b = none := rfl
@[simp] theorem undriven_cin : Inputs.undriven.cin = none := rfl

/-- The parameters the document gives a builder who chooses none (R8). -/
theorem documentDefaults_eq :
    Config.documentDefaults = { mulOvf := .source, divOvf := .source, div0 := .zero } := rfl

/-- Settles O1: the field lemmas of `State.reset` reduce it to the document's defaults and to the four undriven ports. -/
theorem resetIsDefaultBuildWithNothingDriven : Obligations.ResetIsDefaultBuildWithNothingDriven := by
  unfold Obligations.ResetIsDefaultBuildWithNothingDriven
  refine ⟨?config, State.reset_outputs, ?ports⟩
  case config => exact State.reset_config.trans documentDefaults_eq
  case ports =>
    rw [State.reset_inputs]
    exact ⟨undriven_op, undriven_a, undriven_b, undriven_cin⟩

end Sys2Proof.Proofs.Scope
end

section
/-! The addition primitive and the sign conversions in arithmetic (spec/40_add.md R53 to R56, spec/41_subtract.md R58 to R61,
spec/42_sign_magnitude.md R63, R64): the ripple chain is the machine word's addition with a carry-in, and both sign rules are exact. -/

namespace Sys2Proof.Proofs.Addition

open Sys2Proof Sys2Proof.Machine

/-- The carry chain of R53 is the carry of the word's own addition. -/
theorem carryBit_eq_carry (x y : Byte) (c0 : Bit) (i : Nat) : carryBit x y c0 i = BitVec.carry i x y c0 := by
  induction i with
  | zero => exact BitVec.carry_zero.symm
  | succ i ih =>
    rw [carryBit_succ, BitVec.carry_succ, ih]
    cases x.getLsbD i <;> cases y.getLsbD i <;> simp [Bool.atLeastTwo]

/-- R53: the sum of the ripple chain is the sum of its operands and the carry-in. -/
theorem add8_s_eq_add (x y : Byte) (c0 : Bit) : (add8 x y c0).s = x + y + (BitVec.ofBool c0).setWidth 8 := by
  apply BitVec.eq_of_getLsbD_eq
  intro i hi
  rw [add8_s_getLsbD x y c0 i hi, sumBit_eq, carryBit_eq_carry, BitVec.getLsbD_add_add_bool hi, Bool.xor_assoc]

/-- R58: the complement and a carry-in of 1 make the addition primitive subtract. -/
theorem sub8_s_eq_sub (a b : Byte) : (sub8 a b).s = a - b := by
  rw [sub8_eq, add8_s_eq_add, BitVec.sub_eq_add_neg, BitVec.neg_eq_not_add, BitVec.add_assoc]
  rfl

/-- R63: the negation circuit negates. -/
theorem neg8_eq_neg (x : Byte) : neg8 x = -x := by
  rw [neg8_eq, ← sub8_eq, sub8_s_eq_sub, BitVec.zero_sub]

/-- R64: the magnitude is the absolute value as a word, 0x80 for -128. -/
theorem mag_m_eq_abs (x : Byte) : (mag x).m = x.abs := by
  rw [mag_m, neg8_eq_neg, BitVec.abs_eq, BitVec.msb_eq_getLsbD_last]

/-- R56: the sum is the exact signed sum, wrapped. -/
theorem add8_s_eq_ofInt (x y : Byte) (c0 : Bit) :
    (add8 x y c0).s = BitVec.ofInt 8 (x.toInt + y.toInt + c0.toNat) := by
  have hcarry : BitVec.ofInt 8 c0.toNat = (BitVec.ofBool c0).setWidth 8 := by cases c0 <;> rfl
  rw [add8_s_eq_add, BitVec.ofInt_add, BitVec.ofInt_add, BitVec.ofInt_toInt, BitVec.ofInt_toInt, hcarry]

/-- R61: the difference is the exact signed difference, wrapped. -/
theorem sub8_s_eq_ofInt (a b : Byte) : (sub8 a b).s = BitVec.ofInt 8 (a.toInt - b.toInt) := by
  rw [sub8_s_eq_sub, Int.sub_eq_add_neg, BitVec.ofInt_add, BitVec.ofInt_neg, BitVec.ofInt_toInt, BitVec.ofInt_toInt,
    BitVec.sub_eq_add_neg]

/-- Bit 7 of a byte is its sign (R10). -/
theorem sign_eq_decide (x : Byte) : x.getLsbD 7 = decide (x.toInt < 0) := by
  have hmsb : x.getLsbD 7 = x.msb := (BitVec.msb_eq_getLsbD_last x).symm
  rw [hmsb, Bool.eq_iff_iff, decide_eq_true_iff, BitVec.toInt_neg_iff, BitVec.msb_eq_true_iff_two_mul_ge]

theorem toInt_range (x : Byte) : -128 ≤ x.toInt ∧ x.toInt ≤ 127 := ⟨x.le_toInt, x.toInt_le⟩

/-- Wrapping an integer that misses the signed range by less than 256 turns its sign around. -/
theorem sign_ofInt (k : Int) (hlow : -256 ≤ k) (hhigh : k ≤ 255) :
    (BitVec.ofInt 8 k).getLsbD 7 = decide (-128 ≤ k ∧ k < 0 ∨ 127 < k) := by
  rw [sign_eq_decide, BitVec.toInt_ofInt, Int.bmod_def, decide_eq_decide]
  split <;> omega

/-- R54, R56: the sign rule of addition reports exactly the sums that do not fit. -/
theorem add8_v_eq_outOfRange (x y : Byte) (c0 : Bit) :
    (add8 x y c0).v = outOfRange (x.toInt + y.toInt + c0.toNat) := by
  obtain ⟨hxl, hxh⟩ := toInt_range x
  obtain ⟨hyl, hyh⟩ := toInt_range y
  have hc : c0.toNat ≤ 1 := c0.toNat_le
  rw [add8_v, add8_s_eq_ofInt, sign_ofInt _ (by omega) (by omega), sign_eq_decide x, sign_eq_decide y, addOvf,
    outOfRange, Bool.eq_iff_iff]
  simp only [Bool.and_eq_true, beq_iff_eq, bne_iff_ne, ne_eq, decide_eq_decide, decide_eq_true_iff]
  omega

/-- R59, R61: the sign rule of subtraction reports exactly the differences that do not fit. -/
theorem subOvf_eq_outOfRange (a b : Byte) :
    subOvf (a.getLsbD 7) (b.getLsbD 7) ((sub8 a b).s.getLsbD 7) = outOfRange (a.toInt - b.toInt) := by
  obtain ⟨hal, hah⟩ := toInt_range a
  obtain ⟨hbl, hbh⟩ := toInt_range b
  rw [sub8_s_eq_ofInt, sign_ofInt _ (by omega) (by omega), sign_eq_decide a, sign_eq_decide b, subOvf, outOfRange,
    Bool.eq_iff_iff]
  simp only [Bool.and_eq_true, beq_iff_eq, bne_iff_ne, ne_eq, decide_eq_decide, decide_eq_true_iff]
  omega

end Sys2Proof.Proofs.Addition
end

section
/-! The multiplier in arithmetic (spec/43_multiply.md R70 to R74): the running total takes the multiplier's bits in from the low end, and
the sign restored at the end makes the total the product of the signed operands. -/

namespace Sys2Proof.Proofs.Multiplication

open Sys2Proof Sys2Proof.Machine Sys2Proof.Proofs.Addition

/-- R69: a partial product is the multiplicand times one bit of the multiplier, at that bit's weight. -/
theorem partialProduct_toNat (ma mb : Byte) (i : Nat) :
    (partialProduct ma mb i).toNat = ma.toNat * (2 ^ i * (mb.toNat / 2 ^ i % 2)) % 256 := by
  have hbit : (mb.getLsbD i).toNat = mb.toNat / 2 ^ i % 2 := Nat.toNat_testBit _ _
  rw [partialProduct, ← hbit]
  cases mb.getLsbD i
  · simp
  · simp [BitVec.toNat_shiftLeft, Nat.shiftLeft_eq]

/-- R70: after i additions the total is the multiplicand times the low i bits of the multiplier, modulo 256. -/
theorem accumulate_toNat (ma mb : Byte) (i : Nat) :
    (accumulate ma mb i).toNat = ma.toNat * (mb.toNat % 2 ^ i) % 256 := by
  induction i with
  | zero => simp [Nat.mod_one]
  | succ i ih =>
    have hsum : (accumulate ma mb (i + 1)).toNat =
        ((accumulate ma mb i).toNat + (partialProduct ma mb i).toNat) % 256 := by
      rw [accumulate_succ, add8_s_eq_add]
      simp
    rw [hsum, ih, partialProduct_toNat, ← Nat.add_mod, ← Nat.mul_add, ← Nat.mod_pow_succ]

/-- R71: the eight additions multiply. -/
theorem accumulate_eight (ma mb : Byte) : accumulate ma mb 8 = ma * mb := by
  apply BitVec.eq_of_toNat_eq
  rw [accumulate_toNat, Nat.mod_eq_of_lt mb.isLt, BitVec.toNat_mul]

/-- R71, R72: a sign is restored exactly when one operand lost it, so the byte is the product of the operands themselves. -/
theorem prod8_eq_mul (a b : Byte) : prod8 a b = a * b := by
  have htotal : prod8 a b = restore (a.abs * b.abs) (a.msb ^^ b.msb) := by
    rw [prod8, mag_m_eq_abs, mag_m_eq_abs, mag_n, mag_n, Config.iter, accumulate_eight, BitVec.msb_eq_getLsbD_last,
      BitVec.msb_eq_getLsbD_last]
  rw [htotal, BitVec.abs_eq, BitVec.abs_eq]
  cases a.msb <;> cases b.msb <;> simp [restore, neg8_eq_neg]

/-- R72: the byte is the exact signed product, wrapped. -/
theorem prod8_eq_ofInt (a b : Byte) : prod8 a b = BitVec.ofInt 8 (a.toInt * b.toInt) := by
  rw [prod8_eq_mul, BitVec.ofInt_mul, BitVec.ofInt_toInt, BitVec.ofInt_toInt]

/-- R73: sixteen bits hold every product of two signed bytes. -/
theorem p16_toInt (a b : Byte) : (p16 a b).toInt = a.toInt * b.toInt := by
  have hlow : -(2 ^ 14 : Int) ≤ a.toInt * b.toInt := BitVec.le_toInt_mul_toInt
  have hhigh : a.toInt * b.toInt ≤ 2 ^ 14 := BitVec.toInt_mul_toInt_le
  rw [p16, BitVec.toInt_ofInt]
  exact Int.bmod_eq_of_le (by omega) (by omega)

/-- R74: under ENHANCED the products that do not fit are reported, under SOURCE none is. -/
theorem mulOvf_eq_outOfRange (policy : OvfPolicy) (a b : Byte) :
    mulOvf policy a b = (decide (policy = .enhanced) && outOfRange (a.toInt * b.toInt)) := by
  cases policy with
  | source => rfl
  | enhanced => rw [mulOvf_enhanced, p16_toInt, outOfRange, decide_eq_true rfl, Bool.true_and]

end Sys2Proof.Proofs.Multiplication
end

section
/-! The restoring divider in arithmetic (spec/44_divide.md R77 to R86). With a divisor, each trial yields one binary digit of long division
and leaves the partial remainder in the left half; with a zero divisor, no trial changes the register. -/

namespace Sys2Proof.Proofs.Division

open Sys2Proof Sys2Proof.Machine Sys2Proof.Proofs.Addition

/-- Long division in base 2: bringing down one bit of the dividend turns the remainder `n % d` into `(2 * (n % d) + bit) % d`, and the next
quotient digit says whether the divisor fits. -/
theorem longDivision_digit {n d bit : Nat} (hd : 0 < d) (hbit : bit ≤ 1) :
    (2 * n + bit) % d = (2 * (n % d) + bit) % d ∧
      (2 * n + bit) / d % 2 = if d ≤ 2 * (n % d) + bit then 1 else 0 := by
  have hrem : n % d < d := Nat.mod_lt n hd
  have hsplit : 2 * n + bit = d * (2 * (n / d)) + (2 * (n % d) + bit) := by
    calc 2 * n + bit = 2 * (d * (n / d) + n % d) + bit := by rw [Nat.div_add_mod]
      _ = d * (2 * (n / d)) + (2 * (n % d) + bit) := by ring
  have hdigit : (2 * (n % d) + bit) / d = if d ≤ 2 * (n % d) + bit then 1 else 0 := by
    split
    case isTrue hfits => exact Nat.div_eq_of_lt_le (by omega) (by omega)
    case isFalse hfits => exact Nat.div_eq_of_lt (by omega)
  constructor
  · rw [hsplit, Nat.mul_add_mod]
  · rw [hsplit, Nat.mul_add_div hd, hdigit, Nat.mul_add_mod]
    split <;> rfl

/-! ## One trial -/

theorem leftHalf_toNat (w : WorkReg) : (leftHalf w).toNat = w.toNat / 128 := by
  have hw : w.toNat < 2 ^ 15 := w.isLt
  rw [leftHalf, BitVec.extractLsb'_toNat, Nat.shiftRight_eq_div_pow]
  exact Nat.mod_eq_of_lt (by omega)

theorem rightHalf_toNat (w : WorkReg) : (rightHalf w).toNat = w.toNat % 128 := by
  rw [rightHalf, BitVec.extractLsb'_toNat, Nat.shiftRight_zero]

/-- R78: the trial subtracts the divisor from the left half. -/
theorem trialDiff_eq_sub (mb : Byte) (w : WorkReg) : trialDiff mb w = leftHalf w - mb := sub8_s_eq_sub (leftHalf w) mb

/-- R81: below twice the divisor, the sign of the trial difference tells whether the divisor fits. -/
theorem trialFits_eq_decide {mb : Byte} {w : WorkReg} (hmb : mb.toNat ≤ 128)
    (hleft : (leftHalf w).toNat < 2 * mb.toNat) :
    trialFits mb w = decide (mb.toNat ≤ (leftHalf w).toNat) := by
  have hmsb : (leftHalf w - mb).getLsbD 7 = decide (2 ^ (8 - 1) ≤ (leftHalf w - mb).toNat) :=
    (BitVec.msb_eq_getLsbD_last _).symm.trans (BitVec.msb_eq_decide _)
  rw [trialFits, trialDiff_eq_sub, hmsb, BitVec.toNat_sub, ← decide_not, decide_eq_decide]
  omega

/-- R81: a trial reduces the left half modulo the divisor and leaves the right half. -/
theorem trialKeep_toNat {mb : Byte} {w : WorkReg} (hmb : mb.toNat ≤ 128)
    (hleft : (leftHalf w).toNat < 2 * mb.toNat) :
    (trialKeep mb w).toNat = 128 * ((leftHalf w).toNat % mb.toNat) + w.toNat % 128 := by
  have hfits := trialFits_eq_decide hmb hleft
  rcases trialKeep_cases mb w with ⟨hyes, -, hkeep⟩ | ⟨hno, -, hkeep⟩
  · have hle : mb.toNat ≤ (leftHalf w).toNat := of_decide_eq_true (hfits.symm.trans hyes)
    have hmod : (leftHalf w).toNat % mb.toNat = (leftHalf w).toNat - mb.toNat := by
      rw [Nat.mod_eq_sub_mod hle, Nat.mod_eq_of_lt (by omega)]
    have hdiff : (leftHalf w - mb).toNat = (leftHalf w).toNat - mb.toNat := BitVec.toNat_sub_of_le hle
    have hright : (rightHalf w).toNat < 2 ^ 7 := (rightHalf w).isLt
    rw [hkeep, BitVec.toNat_append, ← Nat.shiftLeft_add_eq_or_of_lt hright, trialDiff_eq_sub, hdiff, rightHalf_toNat, hmod,
      Nat.shiftLeft_eq, Nat.mul_comm]
  · have hlt : (leftHalf w).toNat < mb.toNat := Nat.lt_of_not_le (of_decide_eq_false (hfits.symm.trans hno))
    rw [hkeep, Nat.mod_eq_of_lt hlt, leftHalf_toNat, Nat.div_add_mod]

/-! ## Eight trials by a divisor -/

section Divisor

variable {ma mb : Byte} {k : Nat}

/-- What the register holds before trial k: the remainder of the dividend's top k bits by the divisor, then the bits still to be brought
down (R78, R81). -/
def RegisterHolds (ma mb : Byte) (k : Nat) (w : WorkReg) : Prop :=
  w.toNat = 256 * (ma.toNat / 2 ^ (8 - k) % mb.toNat) + 2 ^ k * (ma.toNat % 2 ^ (8 - k))

/-- Bit 7 - k of the dividend follows its top k bits. -/
theorem dividend_top_succ (ma : Byte) (hk : k < 8) :
    ma.toNat / 2 ^ (7 - k) = 2 * (ma.toNat / 2 ^ (8 - k)) + ma.toNat / 2 ^ (7 - k) % 2 := by
  have hhalf : ma.toNat / 2 ^ (8 - k) = ma.toNat / 2 ^ (7 - k) / 2 := by
    rw [Nat.div_div_eq_div_mul, ← Nat.pow_succ, show (7 - k).succ = 8 - k by omega]
  omega

/-- The two halves of such a register: the remainder with the next bit brought down, and the bits after it. -/
theorem RegisterHolds.halves {w : WorkReg} (hk : k < 8) (h : RegisterHolds ma mb k w) :
    (leftHalf w).toNat = 2 * (ma.toNat / 2 ^ (8 - k) % mb.toNat) + ma.toNat / 2 ^ (7 - k) % 2 ∧
      w.toNat % 128 = 2 ^ k * (ma.toNat % 2 ^ (7 - k)) := by
  have hweight : 2 ^ k * 2 ^ (7 - k) = 128 := by rw [← Nat.pow_add, show k + (7 - k) = 7 by omega]
  have hlow : 2 ^ k * (ma.toNat % 2 ^ (7 - k)) < 128 :=
    hweight ▸ Nat.mul_lt_mul_of_pos_left (Nat.mod_lt _ (Nat.two_pow_pos _)) (Nat.two_pow_pos k)
  have hbits : 2 ^ k * (ma.toNat % 2 ^ (8 - k)) =
      2 ^ k * (ma.toNat % 2 ^ (7 - k)) + 128 * (ma.toNat / 2 ^ (7 - k) % 2) := by
    rw [show 8 - k = 7 - k + 1 by omega, Nat.mod_pow_succ, Nat.mul_add, ← Nat.mul_assoc, hweight]
  rw [RegisterHolds, hbits] at h
  rw [leftHalf_toNat]
  omega

/-- The left half stays below twice the divisor, so each trial is exact. -/
theorem RegisterHolds.left_lt {w : WorkReg} (hpos : 0 < mb.toNat) (hk : k < 8) (h : RegisterHolds ma mb k w) :
    (leftHalf w).toNat < 2 * mb.toNat := by
  have hrem : ma.toNat / 2 ^ (8 - k) % mb.toNat < mb.toNat := Nat.mod_lt _ hpos
  have hleft := (h.halves hk).1
  omega

/-- One trial and the shift after it bring the register from its k-th content to the next. -/
theorem RegisterHolds.trial {w : WorkReg} (hpos : 0 < mb.toNat) (hmb : mb.toNat ≤ 128) (hk : k < 8)
    (h : RegisterHolds ma mb k w) : RegisterHolds ma mb (k + 1) (trialKeep mb w <<< 1) := by
  obtain ⟨hleft, hright⟩ := h.halves hk
  have hkeep := trialKeep_toNat hmb (h.left_lt hpos hk)
  have hrem : ma.toNat / 2 ^ (7 - k) % mb.toNat = (leftHalf w).toNat % mb.toNat := by
    rw [dividend_top_succ ma hk, hleft, (longDivision_digit hpos (by omega)).1]
  have hlt : (leftHalf w).toNat % mb.toNat < mb.toNat := Nat.mod_lt _ hpos
  have hshift : (trialKeep mb w <<< 1).toNat = 2 * (trialKeep mb w).toNat := by
    rw [BitVec.toNat_shiftLeft, Nat.shiftLeft_eq, Nat.mod_eq_of_lt (by omega), Nat.mul_comm]
  rw [RegisterHolds, show 8 - (k + 1) = 7 - k by omega, hshift, hkeep, hrem, hright, Nat.pow_succ]
  ring

theorem registerHolds_workReg (hpos : 0 < mb.toNat) (hmb : mb.toNat ≤ 128) (hk : k ≤ 8) :
    RegisterHolds ma mb k (workReg ma mb k) := by
  induction k with
  | zero =>
    have hma : ma.toNat < 2 ^ 8 := ma.isLt
    rw [RegisterHolds, workReg_zero, BitVec.toNat_setWidth, Nat.div_eq_of_lt hma, Nat.zero_mod, Nat.mod_eq_of_lt hma,
      Nat.mod_eq_of_lt (by omega)]
    omega
  | succ k ih => exact workReg_succ ma mb k ▸ (ih (by omega)).trial hpos hmb hk

/-- R79, R81: trial bit k is bit 7 - k of the quotient of the magnitudes. -/
theorem trialFits_workReg (hpos : 0 < mb.toNat) (hmb : mb.toNat ≤ 128) (hk : k < 8) :
    trialFits mb (workReg ma mb k) = (ma.toNat / mb.toNat).testBit (7 - k) := by
  have hreg : RegisterHolds ma mb k (workReg ma mb k) := registerHolds_workReg hpos hmb (by omega)
  have hdigit : ma.toNat / mb.toNat / 2 ^ (7 - k) % 2 =
      if mb.toNat ≤ (leftHalf (workReg ma mb k)).toNat then 1 else 0 := by
    rw [Nat.div_right_comm, dividend_top_succ ma hk, (longDivision_digit hpos (by omega)).2, (hreg.halves hk).1]
  rw [trialFits_eq_decide hmb (hreg.left_lt hpos hk), Nat.testBit_eq_decide_div_mod_eq, hdigit, decide_eq_decide]
  split <;> simp [*]

/-- R81: the eight trials divide the magnitudes. -/
theorem quotientMag_eq_udiv (hpos : 0 < mb.toNat) (hmb : mb.toNat ≤ 128) : quotientMag ma mb = ma / mb := by
  apply BitVec.eq_of_getLsbD_eq
  intro i hi
  have htrial := quotientMag_getLsbD ma mb (7 - i) (by omega)
  rw [trialFits_workReg hpos hmb (by omega), show 7 - (7 - i) = i by omega] at htrial
  rw [htrial, ← BitVec.testBit_toNat, BitVec.toNat_udiv]

end Divisor

/-! ## The signed quotient -/

theorem quo8_eq_restore (a b : Byte) : quo8 a b = restore (quotientMag a.abs b.abs) (a.msb ^^ b.msb) := by
  rw [quo8, mag_m_eq_abs, mag_m_eq_abs, mag_n, mag_n, BitVec.msb_eq_getLsbD_last, BitVec.msb_eq_getLsbD_last]

/-- R65: the magnitude of a divisor is from 1 to 128. -/
theorem abs_toNat_bounds {b : Byte} (hb : b ≠ 0x00#8) : 0 < b.abs.toNat ∧ b.abs.toNat ≤ 128 := by
  have hne : b.toNat ≠ 0 := fun h => hb (BitVec.eq_of_toNat_eq h)
  have hlt : b.toNat < 2 ^ 8 := b.isLt
  rw [BitVec.toNat_abs, BitVec.msb_eq_decide]
  simp only [decide_eq_true_iff]
  split <;> omega

/-- R80, R82: with the sign restored, the trials are signed division. -/
theorem quo8_eq_sdiv {a b : Byte} (hb : b ≠ 0x00#8) : quo8 a b = a.sdiv b := by
  obtain ⟨hpos, hle⟩ := abs_toNat_bounds hb
  rw [quo8_eq_restore, quotientMag_eq_udiv hpos hle, BitVec.sdiv_eq, BitVec.abs_eq, BitVec.abs_eq]
  cases a.msb <;> cases b.msb <;> simp [restore, neg8_eq_neg]

/-- R82: for a divisor other than 0 the byte is the truncated quotient, wrapped. -/
theorem quo8_eq_ofInt {a b : Byte} (hb : b ≠ 0x00#8) : quo8 a b = BitVec.ofInt 8 (a.toInt.tdiv b.toInt) := by
  apply BitVec.eq_of_toInt_eq
  rw [quo8_eq_sdiv hb, BitVec.toInt_sdiv, BitVec.toInt_ofInt]

/-- R86: a quotient is no larger than its dividend, so it cannot fall below the signed range. -/
theorem neg_128_le_tdiv (a b : Byte) : -128 ≤ a.toInt.tdiv b.toInt := by
  have hle : (a.toInt.tdiv b.toInt).natAbs ≤ a.toInt.natAbs := Int.natAbs_tdiv_le_natAbs _ _
  obtain ⟨hlow, hhigh⟩ := toInt_range a
  omega

/-- R86: under ENHANCED the quotients that do not fit are reported, under SOURCE none is. -/
theorem divOvf_eq_outOfRange (policy : OvfPolicy) (a : Byte) {b : Byte} (hb : b ≠ 0x00#8) :
    divOvf policy a b = (decide (policy = .enhanced) && outOfRange (a.toInt.tdiv b.toInt)) := by
  cases policy with
  | source => exact divOvf_source a b
  | enhanced =>
    have hlow := neg_128_le_tdiv a b
    rw [divOvf_enhanced hb, outOfRange, decide_eq_true rfl, Bool.true_and, decide_eq_decide]
    omega

/-! ## The zero divisor -/

/-- R84: subtracting a zero divisor leaves the register as it is, whether the trial fits or not. -/
theorem trialKeep_zero (w : WorkReg) : trialKeep 0x00#8 w = w := by
  rcases trialKeep_cases 0x00#8 w with ⟨-, -, hkeep⟩ | ⟨-, -, hkeep⟩
  · have hright : (rightHalf w).toNat < 2 ^ 7 := (rightHalf w).isLt
    apply BitVec.eq_of_toNat_eq
    rw [hkeep, trialDiff_eq_sub, BitVec.sub_zero, BitVec.toNat_append, ← Nat.shiftLeft_add_eq_or_of_lt hright,
      Nat.shiftLeft_eq, leftHalf_toNat, rightHalf_toNat, Nat.div_add_mod']
  · exact hkeep

/-- R84: the register only shifts. -/
theorem workReg_zero_divisor (ma : Byte) (k : Nat) : workReg ma 0x00#8 k = ma.setWidth 15 <<< k := by
  induction k with
  | zero => rw [workReg_zero, BitVec.shiftLeft_zero]
  | succ k ih => rw [workReg_succ, trialKeep_zero, ih, ← BitVec.shiftLeft_add]

/-- R84: a zero divisor fits every time but where the dividend magnitude's bit 7 has reached the top, in the last trial. -/
theorem trialFits_zero_divisor (ma : Byte) {k : Nat} (hk : k < 8) :
    trialFits 0x00#8 (workReg ma 0x00#8 k) = !ma.getLsbD (14 - k) := by
  rw [trialFits, trialDiff_eq_sub, BitVec.sub_zero, workReg_zero_divisor, leftHalf, BitVec.getLsbD_extractLsb',
    BitVec.getLsbD_shiftLeft, BitVec.getLsbD_setWidth]
  simp [show ¬ 14 < k by omega, show 14 - k < 15 by omega]

/-- R84: the raw quotient of the magnitudes is all ones, but for bit 0 when the dividend's magnitude is 128. -/
theorem quotientMag_zero_divisor (ma : Byte) :
    quotientMag ma 0x00#8 = if ma.getLsbD 7 then 0xFE#8 else 0xFF#8 := by
  apply BitVec.eq_of_getLsbD_eq
  intro i hi
  have htrial := quotientMag_getLsbD ma 0x00#8 (7 - i) (by omega)
  rw [trialFits_zero_divisor ma (by omega), show 7 - (7 - i) = i by omega, show 14 - (7 - i) = 7 + i by omega] at htrial
  rw [htrial]
  cases i with
  | zero => cases ma.getLsbD 7 <;> rfl
  | succ j =>
    have hj : j < 7 := by omega
    have hones : (0xFE#8).getLsbD (j + 1) = true ∧ (0xFF#8).getLsbD (j + 1) = true := by
      interval_cases j <;> exact ⟨rfl, rfl⟩
    rw [BitVec.getLsbD_of_ge ma (7 + (j + 1)) (by omega)]
    split
    · exact hones.1.symm
    · exact hones.2.symm

/-- R65: only -128 has a magnitude with bit 7 set. -/
theorem abs_getLsbD_seven (a : Byte) : a.abs.getLsbD 7 = decide (a = 0x80#8) := by
  have hmsb : a.abs.getLsbD 7 = a.abs.msb := (BitVec.msb_eq_getLsbD_last _).symm
  rw [hmsb, BitVec.msb_abs]
  exact Bool.and_true _

/-- R84: the raw quotients of a non-negative, a negative and the most negative dividend. -/
theorem quo8_zero_divisor (a : Byte) : quo8 a 0x00#8 = rawDivZero a := by
  have hquo : quo8 a 0x00#8 = restore (if a = 0x80#8 then 0xFE#8 else 0xFF#8) a.msb := by
    have hzero : (0x00#8).abs = 0x00#8 ∧ (0x00#8).msb = false := ⟨rfl, rfl⟩
    rw [quo8_eq_restore, hzero.1, hzero.2, Bool.xor_false, quotientMag_zero_divisor, abs_getLsbD_seven]
    simp only [decide_eq_true_iff]
  have hsign : a.msb = decide (a.toInt < 0) := (BitVec.msb_eq_getLsbD_last a).trans (sign_eq_decide a)
  rw [hquo, rawDivZero, hsign]
  rcases lt_or_ge a.toInt 0 with hneg | hnonneg
  · rw [if_neg (Int.not_le.mpr hneg), decide_eq_true hneg]
    split <;> rfl
  · have hne : a ≠ 0x80#8 := fun h => absurd (h ▸ hnonneg) (by decide)
    rw [if_pos hnonneg, if_neg hne, decide_eq_false (Int.not_lt.mpr hnonneg), restore_false]

end Sys2Proof.Proofs.Division
end

section
/-! The ports, and how the outputs are read (spec/10_state.md R16, R17, R28, R29). A host that places a request at the ports is one case of
driving them; a transaction leaves nothing of the state before it but the parameters of the build. -/

namespace Sys2Proof.Proofs.Ports

open Sys2Proof Sys2Proof.Machine

/-- The ports that a packed request drives are at the fields it was packed from (R43). -/
@[simp] theorem ofRequest_packRequest (op : BitVec 2) (cin : Bit) (a b : Byte) :
    Inputs.ofRequest (packRequest op cin a b) = { op := some op, a := some a, b := some b, cin := some cin } := by
  simp [Inputs.ofRequest]

/-- Settling after presenting a request keeps of the earlier state only how the block is built (R28). -/
theorem present_settle (s : State) (w : RequestWord) (o : Outputs) :
    (s.present w).settle o = { config := s.config, inputs := Inputs.ofRequest w, outputs := some o } :=
  State.drive_settle s (Inputs.ofRequest w) o

/-- A number of 19 bits is read as the request word it spells (R49). -/
theorem decodeNat_of_lt {w : Nat} (h : w < 2 ^ 19) : decodeNat w = .ok (decode (BitVec.ofNat 19 w)) := if_pos h

/-- A wider number is rejected by name (R49, log 6). -/
theorem decodeNat_of_le {w : Nat} (h : 2 ^ 19 ≤ w) : decodeNat w = .error (.widerThanRequestWord w) :=
  if_neg (Nat.not_lt.mpr h)

/-- The numbers the table's decoder reads are those whose low bits fit a request word (R49, log 6). -/
theorem decodeTableWord_eq_some_iff (nbits w : Nat) (i : Instr) :
    decodeTableWord nbits w = some i ↔
      w % 2 ^ nbits < 2 ^ 19 ∧ decode (BitVec.ofNat 19 (w % 2 ^ nbits)) = i := by
  rcases Nat.lt_or_ge (w % 2 ^ nbits) (2 ^ 19) with hfits | hwide
  · rw [decodeTableWord, decodeNat_of_lt hfits, Option.some_inj, and_iff_right hfits]
  · rw [decodeTableWord, decodeNat_of_le hwide]
    exact iff_of_false (by simp) fun ⟨hfits, _⟩ => Nat.not_lt.mpr hwide hfits

@[simp] theorem withFetchWord_config (s : State) (nbits w : Nat) : (s.withFetchWord nbits w).config = s.config :=
  State.present_config s _

@[simp] theorem withFetchWord_inputs (s : State) (nbits w : Nat) :
    (s.withFetchWord nbits w).inputs = Inputs.ofRequest (BitVec.ofNat 19 (w % 2 ^ nbits)) :=
  State.present_inputs s _

/-- The bit sequence lists the byte's bits from bit 7 down (R29). -/
theorem bitSequence_eq_map (v : Byte) : bitSequence v = (List.range 8).map fun i => v.getLsbD (7 - i) := rfl

/-- A bit appended at the low end doubles the value before it. -/
theorem sequenceValue_append_bit (bits : List Bit) (bit : Bit) :
    sequenceValue (bits ++ [bit]) = 2 * sequenceValue bits + bit.toNat := by
  simp [sequenceValue]

/-- The first `j` bits of the sequence spell the byte without its low `8 - j` bits. -/
theorem sequenceValue_high_bits (v : Byte) (j : Nat) (hj : j ≤ 8) :
    sequenceValue ((List.range j).map fun i => v.getLsbD (7 - i)) = v.toNat / 2 ^ (8 - j) := by
  induction j with
  | zero => exact (Nat.div_eq_of_lt v.isLt).symm
  | succ j ih =>
    have hbit : (v.getLsbD (7 - j)).toNat = v.toNat / 2 ^ (7 - j) % 2 := Nat.toNat_testBit _ _
    have hhalf : v.toNat / 2 ^ (8 - j) = v.toNat / 2 ^ (7 - j) / 2 := by
      rw [Nat.div_div_eq_div_mul, ← Nat.pow_succ, show (7 - j).succ = 8 - j by omega]
    rw [List.range_succ, List.map_append, List.map_singleton, sequenceValue_append_bit, ih (by omega), hbit, hhalf,
      show 8 - (j + 1) = 7 - j by omega]
    omega

/-- Settles O14: a number the table reads fits 19 bits, so the ports then hold exactly the word that decodes to `i`. -/
theorem fetchWordRunsTheTablesInstruction : Obligations.FetchWordRunsTheTablesInstruction := by
  unfold Obligations.FetchWordRunsTheTablesInstruction
  intro s nbits w i hi
  obtain ⟨-, hdecode⟩ := (decodeTableWord_eq_some_iff nbits w i).mp hi
  have hrequest : (s.withFetchWord nbits w).inputs.request = .ok (BitVec.ofNat 19 (w % 2 ^ nbits)) := by
    rw [withFetchWord_inputs, Inputs.request_ofRequest]
  refine ⟨?_, withFetchWord_config s nbits w⟩
  rw [step_of_request hrequest, hdecode]

/-- Settles O48: the operation computes the same outputs on both blocks (`exec_congr`), and settling them leaves no other trace. -/
theorem outputsDependOnInputsAlone : Obligations.OutputsDependOnInputsAlone := by
  unfold Obligations.OutputsDependOnInputsAlone
  intro s s' hconfig w
  have hpresent : (s.present w).config = (s'.present w).config := by
    rw [State.present_config, State.present_config, hconfig]
  obtain ⟨o, hs, hs'⟩ := exec_congr (decode w) hpresent
  rw [State.transact_eq, State.transact_eq, hs, hs', present_settle, present_settle, hconfig]

/-- Settles O13: levels at all four ports are the levels that their packing drives. -/
theorem stepRunsTheDecodedRequest : Obligations.StepRunsTheDecodedRequest := by
  unfold Obligations.StepRunsTheDecodedRequest
  intro s op a b cin
  constructor
  · intro hinputs
    exact step_of_request ((Inputs.request_eq_ok_iff _ _).mpr (by rw [hinputs, ofRequest_packRequest]))
  · rw [State.present_inputs, ofRequest_packRequest]

/-- Settles O47: the sequence is the bits from 7 down, and all 8 of them spell the byte. -/
theorem bitSequenceCarriesTheResult : Obligations.BitSequenceCarriesTheResult := by
  unfold Obligations.BitSequenceCarriesTheResult
  intro o
  have hseq : o.asSequence.1 = (List.range 8).map fun i => o.y.getLsbD (7 - i) := bitSequence_eq_map o.y
  rw [hseq]
  refine ⟨by simp, ?value, rfl, ?bit⟩
  case value => rw [sequenceValue_high_bits o.y 8 le_rfl, Nat.sub_self, Nat.pow_zero, Nat.div_one]
  case bit =>
    intro i hi
    rw [List.getElem?_map, List.getElem?_range hi, Option.map_some]

end Sys2Proof.Proofs.Ports
end

section
/-! What every use of a block keeps (spec/10_state.md R24, spec/45_output_mux.md R92, spec/60_exceptions.md R97). Each operation settles the
outputs that integer arithmetic gives, so outputs that a step leaves are current, and current outputs never report two conditions. -/

namespace Sys2Proof.Proofs.Soundness

open Sys2Proof Sys2Proof.Machine Sys2Proof.Proofs.Addition Sys2Proof.Proofs.Multiplication Sys2Proof.Proofs.Division

/-! ## Each operation computes the reference -/

/-- R85: on a zero divisor the reference and the operation take `y` from the same mode. -/
theorem reference_div_zero (c : Config) (a : Byte) :
    reference c (.div a 0x00#8) = { y := divResult c.div0 a 0x00#8, ovf := false, dz := true } := by
  obtain ⟨mulOvf, divOvf, div0⟩ := c
  cases div0 with
  | zero => rfl
  | raw => exact congrArg (Outputs.mk · false true) (quo8_zero_divisor a).symm

theorem reference_div_of_ne_zero (c : Config) (a : Byte) {b : Byte} (hb : b ≠ 0x00#8) :
    reference c (.div a b) = wrapped (a.toInt.tdiv b.toInt) (decide (c.divOvf = .enhanced)) := if_neg hb

theorem divResult_of_ne_zero (mode : Div0Mode) (a : Byte) {b : Byte} (hb : b ≠ 0x00#8) :
    divResult mode a b = BitVec.ofInt 8 (a.toInt.tdiv b.toInt) :=
  (if_neg hb).trans (quo8_eq_ofInt hb)

/-- Every operation settles the outputs of the integer reference, in every state and build. -/
theorem exec_eq_reference (i : Instr) (s : State) : exec i s = .next (s.settle (reference s.config i)) := by
  cases i with
  | add a b cin =>
    rw [exec_add, add8_s_eq_ofInt, add8_v_eq_outOfRange, reference, wrapped, Bool.true_and]
  | sub a b =>
    rw [exec_sub, subOvf_eq_outOfRange, sub8_s_eq_ofInt, reference, wrapped, Bool.true_and]
  | mul a b =>
    rw [exec_mul, prod8_eq_ofInt, mulOvf_eq_outOfRange, reference, wrapped]
  | div a b =>
    by_cases hb : b = 0x00#8
    · subst hb
      rw [exec_div, divOvf_zero, (divisionByZero_iff _).mpr rfl, reference_div_zero]
    · have hdz : divisionByZero b = false := decide_eq_false hb
      rw [exec_div, divResult_of_ne_zero _ _ hb, divOvf_eq_outOfRange _ _ hb, hdz, reference_div_of_ne_zero _ _ hb,
        wrapped]

/-- A step that completes settles the reference of the request at the ports. -/
theorem step_eq_next_iff (s t : State) :
    step s = .next t ↔ ∃ w, s.inputs.request = .ok w ∧ t = s.settle (reference s.config (decode w)) := by
  cases h : s.inputs.request with
  | ok w => simp [step_of_request h, exec_eq_reference, eq_comm]
  | error p => simp [step_of_undriven h]

/-- R97: the reference reports overflow only where it does not report division by zero. -/
theorem reference_oneStatus (c : Config) (i : Instr) : ¬ ((reference c i).ovf = true ∧ (reference c i).dz = true) := by
  have hwrapped (k : Int) (exact : Bool) : ¬ ((wrapped k exact).ovf = true ∧ (wrapped k exact).dz = true) :=
    fun ⟨_, hdz⟩ => Bool.false_ne_true hdz
  cases i with
  | add a b cin => exact hwrapped _ _
  | sub a b => exact hwrapped _ _
  | mul a b => exact hwrapped _ _
  | div a b =>
    by_cases hb : b = 0x00#8
    · rw [hb, reference_div_zero]
      exact fun ⟨hovf, _⟩ => Bool.false_ne_true hovf
    · rw [reference_div_of_ne_zero c a hb]
      exact hwrapped _ _

/-! ## The invariant -/

/-- Absent outputs are current: there is nothing to sample (R111, R114). -/
theorem outputsCurrent_of_none {s : State} (h : s.outputs = none) : s.outputsCurrent :=
  fun _ ho => absurd (h.symm.trans ho) (Option.some_ne_none _).symm

theorem outputsCurrent_settle {s : State} {w : RequestWord} (h : s.inputs.request = .ok w) :
    (s.settle (reference s.config (decode w))).outputsCurrent := by
  intro o ho
  rw [State.settle_outputs, Option.some_inj] at ho
  exact ⟨w, h, ho.symm⟩

/-- A step leaves current outputs, whatever was there before. -/
theorem step_outputsCurrent {s t : State} (h : step s = .next t) : t.outputsCurrent := by
  obtain ⟨w, hrequest, rfl⟩ := (step_eq_next_iff s t).mp h
  exact outputsCurrent_settle hrequest

/-- Driving the ports keeps outputs only where it changes no level. -/
theorem drive_outputsCurrent {s : State} (i : Inputs) (h : s.outputsCurrent) : (s.drive i).outputsCurrent := by
  by_cases hsame : s.inputs = i
  · rwa [State.drive_same hsame]
  · rw [State.drive_changed hsame]
    exact outputsCurrent_of_none rfl

/-- Current outputs are the reference's, and it reports one condition at most (R97). -/
theorem oneStatus_of_outputsCurrent {s : State} (h : s.outputsCurrent) : s.oneStatus := by
  intro o ho
  obtain ⟨w, -, rfl⟩ := h o ho
  exact reference_oneStatus s.config (decode w)

theorem step_config {s t : State} (h : step s = .next t) : t.config = s.config := by
  obtain ⟨w, -, rfl⟩ := (step_eq_next_iff s t).mp h
  exact State.settle_config s _

/-- R24: nothing a host does changes how the block is built. -/
theorem reachable_config {c : Config} {s : State} (h : Reachable c s) : s.config = c := by
  induction h with
  | powerUp => exact State.powerUp_config c
  | drive i _ ih => exact (State.drive_config _ i).trans ih
  | step _ hstep ih => exact (step_config hstep).trans ih
  | powerCycle _ ih => exact (State.powerCycle_config _).trans ih

/-- Whatever a host does, what it can sample belongs to what it drives (R113, R114). -/
theorem reachable_outputsCurrent {c : Config} {s : State} (h : Reachable c s) : s.outputsCurrent := by
  induction h with
  | powerUp => exact outputsCurrent_of_none (State.powerUp_outputs c)
  | drive i _ ih => exact drive_outputsCurrent i ih
  | step _ hstep _ => exact step_outputsCurrent hstep
  | powerCycle _ _ => exact outputsCurrent_of_none (State.powerCycle_outputs _)

/-- Settles O54: both invariants hold by induction on the host's acts, and current outputs report one condition at most. -/
theorem reachableStatesAreSound : Obligations.ReachableStatesAreSound := by
  unfold Obligations.ReachableStatesAreSound
  intro c s hreach
  have hcurrent : s.outputsCurrent := reachable_outputsCurrent hreach
  exact ⟨reachable_config hreach, hcurrent, oneStatus_of_outputsCurrent hcurrent⟩

end Sys2Proof.Proofs.Soundness
end

section
/-! Transactions one after another (spec/20_memory.md R35, R38). A transaction settles what UNIT says of its own request
(spec/45_output_mux.md R92) and leaves the build as it is, so neither its repetition nor the transactions before it show in its outputs. -/

namespace Sys2Proof.Proofs.Sequence

open Sys2Proof Sys2Proof.Machine Sys2Proof.Proofs.Ports Sys2Proof.Proofs.Soundness

/-! ## A transaction settles UNIT -/

/-- UNIT writes both values of `y` for a zero divisor (R92) where DIV takes them from the divider's result (R85, R87). -/
theorem unit_div (c : Config) {op : BitVec 2} (hop : Operator.ofCode op = .div) (a b : Byte) (cin : Bit) :
    unit c op a b cin = { y := divResult c.div0 a b, ovf := divOvf c.divOvf a b, dz := divisionByZero b } := by
  by_cases hb : b = 0x00#8
  · subst hb
    rw [divOvf_zero, (divisionByZero_iff _).mpr rfl]
    cases hmode : c.div0 with
    | zero => simp only [unit, hop, hmode, divResult, if_true]
    | raw => simp only [unit, hop, hmode, divResult, if_true]
  · simp only [unit, hop, divResult, divisionByZero, if_neg hb, decide_eq_false hb]

/-- The operation that a request word decodes to settles UNIT on the word's fields. -/
theorem exec_decode (w : RequestWord) (s : State) : exec (decode w) s = .next (s.settle (unitOf s.config w)) := by
  cases hop : Operator.ofCode (opField w) with
  | add => simp only [decode, unitOf, unit, hop, exec_add]
  | sub => simp only [decode, unitOf, unit, hop, exec_sub]
  | mul => simp only [decode, unitOf, unit, hop, exec_mul]
  | div => simp only [decode, unitOf, unit_div _ hop, hop, exec_div]

/-- The whole state that a transaction leaves. -/
theorem transact_eq_unitOf (s : State) (w : RequestWord) :
    s.transact w = .next { config := s.config, inputs := Inputs.ofRequest w, outputs := some (unitOf s.config w) } := by
  rw [State.transact_eq, exec_decode, State.present_config, present_settle]

theorem afterTransaction_eq (s : State) (w : RequestWord) :
    s.afterTransaction w =
      { config := s.config, inputs := Inputs.ofRequest w, outputs := some (unitOf s.config w) } := by
  rw [State.afterTransaction, transact_eq_unitOf]

@[simp] theorem afterTransaction_config (s : State) (w : RequestWord) : (s.afterTransaction w).config = s.config := by
  rw [afterTransaction_eq]

@[simp] theorem afterTransaction_outputs (s : State) (w : RequestWord) :
    (s.afterTransaction w).outputs = some (unitOf s.config w) := by
  rw [afterTransaction_eq]

/-! ## Repetition and sequence -/

/-- Settles O18: a step leaves the request and the build that its outputs were computed from, so settling again changes nothing. -/
theorem transactionIsIdempotent : Obligations.TransactionIsIdempotent := by
  unfold Obligations.TransactionIsIdempotent
  intro s t hstep
  obtain ⟨w, hrequest, rfl⟩ := (step_eq_next_iff s t).mp hstep
  refine (step_eq_next_iff _ _).mpr ⟨w, ?request, ?settled⟩
  case request => rw [State.settle_inputs, hrequest]
  case settled => rw [State.settle_settle, State.settle_config]

/-- Settles O49, by induction on the requests: the first has UNIT's outputs, and the rest start from a block that is built alike. -/
theorem sequenceGivesEachItsOwnOutputs : Obligations.SequenceGivesEachItsOwnOutputs := by
  unfold Obligations.SequenceGivesEachItsOwnOutputs
  intro s ws
  induction ws generalizing s with
  | nil => rfl
  | cons w ws ih => rw [State.sampleAll, ih, afterTransaction_outputs, afterTransaction_config, List.map_cons]

end Sys2Proof.Proofs.Sequence
end

section
/-! The request word (spec/30_encoding.md R43 to R50). Its operation field alone selects the operation, and packing the fields again gives
the word back, so all that the decoder drops is the carry-in where the operation reads none. -/

namespace Sys2Proof.Proofs.Encoding

open Sys2Proof Sys2Proof.Machine Sys2Proof.Proofs.Ports Sys2Proof.Proofs.Sequence

/-! ## Fields under a mask -/

theorem packRequest_and (op op' : BitVec 2) (cin cin' : Bit) (a a' b b' : Byte) :
    packRequest op cin a b &&& packRequest op' cin' a' b' =
      packRequest (op &&& op') (cin && cin') (a &&& a') (b &&& b') := by
  apply BitVec.eq_of_getLsbD_eq
  intro i _
  rw [BitVec.getLsbD_and, packRequest_getLsbD, packRequest_getLsbD, packRequest_getLsbD]
  split_ifs
  · rw [BitVec.getLsbD_and]
  · rw [BitVec.getLsbD_and]
  · rfl
  · rw [BitVec.getLsbD_and]

/-- The mask of the match and mask table selects the operation field (R47). -/
theorem opField_of_masked {w : RequestWord} {op : BitVec 2}
    (h : w &&& 0x60000#19 = packRequest op false 0x00#8 0x00#8) : opField w = op := by
  have hmask : 0x60000#19 = packRequest (BitVec.allOnes 2) false 0x00#8 0x00#8 := rfl
  rw [← packRequest_fields w, hmask, packRequest_and, BitVec.and_allOnes] at h
  simpa using congrArg opField h

/-- Clearing `w[16]` is packing the other fields with carry-in 0. -/
theorem and_carryMask (w : RequestWord) :
    w &&& 0x6FFFF#19 = packRequest (opField w) false (aField w) (bField w) := by
  have hmask : 0x6FFFF#19 = packRequest (BitVec.allOnes 2) false (BitVec.allOnes 8) (BitVec.allOnes 8) := rfl
  calc w &&& 0x6FFFF#19
      = packRequest (opField w) (cinField w) (aField w) (bField w) &&& 0x6FFFF#19 := by rw [packRequest_fields]
    _ = packRequest (opField w) false (aField w) (bField w) := by
      rw [hmask, packRequest_and, Bool.and_false, BitVec.and_allOnes, BitVec.and_allOnes, BitVec.and_allOnes]

/-! ## The decoder, one equation per operation -/

section Decoder

variable {w : RequestWord}

theorem decode_add (h : opField w = 0b00#2) : decode w = .add (aField w) (bField w) (cinField w) := by
  rw [decode, h]; rfl

theorem decode_sub (h : opField w = 0b01#2) : decode w = .sub (aField w) (bField w) := by
  rw [decode, h]; rfl

theorem decode_mul (h : opField w = 0b10#2) : decode w = .mul (aField w) (bField w) := by
  rw [decode, h]; rfl

theorem decode_div (h : opField w = 0b11#2) : decode w = .div (aField w) (bField w) := by
  rw [decode, h]; rfl

end Decoder

/-- R44: the enumeration of operation codes is closed. -/
theorem opCode_cases (op : BitVec 2) : op = 0b00#2 ∨ op = 0b01#2 ∨ op = 0b10#2 ∨ op = 0b11#2 := by
  revert op; decide

/-! ## Encoding a decoded word -/

theorem encode_decode_of_add {w : RequestWord} (h : opField w = 0b00#2) : encode (decode w) = w := by
  have hpack := packRequest_fields w
  rw [h] at hpack
  rw [decode_add h]
  exact hpack

/-- For the operations that read no carry-in, the encoder writes 0 in its place (R50). -/
theorem encode_decode_of_ne_add {w : RequestWord} (h : opField w ≠ 0b00#2) :
    encode (decode w) = packRequest (opField w) false (aField w) (bField w) := by
  rcases opCode_cases (opField w) with hadd | hsub | hmul | hdiv
  · exact absurd hadd h
  · rw [decode_sub hsub, hsub]; rfl
  · rw [decode_mul hmul, hmul]; rfl
  · rw [decode_div hdiv, hdiv]; rfl

/-- Settles O7: ADD keeps every field, the others keep every field but the carry-in, and masking `w[16]` away does the same. -/
theorem encodeOfDecodeClearsOnlyIgnoredCarry : Obligations.EncodeOfDecodeClearsOnlyIgnoredCarry := by
  unfold Obligations.EncodeOfDecodeClearsOnlyIgnoredCarry
  intro w
  split
  case isTrue hadd => exact encode_decode_of_add hadd
  case isFalse hother => rw [encode_decode_of_ne_add hother, and_carryMask]

/-- Settles O5: each row's match is a packing of its code, so a word that matches has that code in its operation field. -/
theorem matchAndMaskSelectTheOperation : Obligations.MatchAndMaskSelectTheOperation := by
  unfold Obligations.MatchAndMaskSelectTheOperation
  intro w
  exact ⟨fun hadd => decode_add (opField_of_masked hadd), fun hsub => decode_sub (opField_of_masked hsub),
    fun hmul => decode_mul (opField_of_masked hmul), fun hdiv => decode_div (opField_of_masked hdiv)⟩

/-- Settles O9: the four codes are all the codes, and a transaction leaves UNIT's outputs in every state and build. -/
theorem everyRequestWordCompletes : Obligations.EveryRequestWordCompletes := by
  unfold Obligations.EveryRequestWordCompletes
  intro s w
  refine ⟨?decoded, _, _, transact_eq_unitOf s w, rfl⟩
  case decoded =>
    rcases opCode_cases (opField w) with hadd | hsub | hmul | hdiv
    · exact .inl ⟨hadd, decode_add hadd⟩
    · exact .inr (.inl ⟨hsub, decode_sub hsub⟩)
    · exact .inr (.inr (.inl ⟨hmul, decode_mul hmul⟩))
    · exact .inr (.inr (.inr ⟨hdiv, decode_div hdiv⟩))

/-! ## The carry-in -/

@[simp] theorem unitOf_packRequest (c : Config) (op : BitVec 2) (cin : Bit) (a b : Byte) :
    unitOf c (packRequest op cin a b) = unit c op a b cin := by
  simp [unitOf]

theorem unit_add (c : Config) (a b : Byte) (cin : Bit) :
    unit c 0b00#2 a b cin = { y := (add8 a b cin).s, ovf := (add8 a b cin).v, dz := false } := rfl

/-- SUB adds the complement with carry-in 1, whatever `cin` is (R46, R58). -/
theorem unit_sub_y (c : Config) (a b : Byte) (cin : Bit) :
    (unit c 0b01#2 a b cin).y = (add8 a (~~~b) true).s := rfl

/-- R46: only ADD reads `cin`. -/
theorem unit_cin_ignored (c : Config) {op : BitVec 2} (h : op ≠ 0b00#2) (a b : Byte) (cin cin' : Bit) :
    unit c op a b cin = unit c op a b cin' := by
  rcases opCode_cases op with rfl | rfl | rfl | rfl
  · exact absurd rfl h
  · rfl
  · rfl
  · rfl

/-- Settles O10: a transaction leaves UNIT's outputs, and UNIT hands `cin` to ADD8 for ADD and to nothing for the other codes. -/
theorem carryInIsReadByAddOnly : Obligations.CarryInIsReadByAddOnly := by
  unfold Obligations.CarryInIsReadByAddOnly
  intro s a b cin
  refine ⟨⟨_, transact_eq_unitOf _ _, ?add⟩, ⟨_, transact_eq_unitOf _ _, ?sub⟩, fun op hop => ?other⟩
  case add => rw [unitOf_packRequest, unit_add]
  case sub => rw [unitOf_packRequest, Option.map_some, unit_sub_y]
  case other =>
    rw [afterTransaction_outputs, afterTransaction_outputs, unitOf_packRequest, unitOf_packRequest,
      unit_cin_ignored s.config hop a b true false]

/-- Settles O8: a request word's number is below 2^19 and names the word again; the wider numbers are the decoder's other branch. -/
theorem onlyNineteenBitNumbersDecode : Obligations.OnlyNineteenBitNumbersDecode := by
  unfold Obligations.OnlyNineteenBitNumbersDecode
  refine ⟨fun w => ?fits, fun n hwide => decodeNat_of_le hwide⟩
  case fits => rw [decodeNat_of_lt w.isLt, BitVec.ofNat_toNat, BitVec.setWidth_eq]

end Sys2Proof.Proofs.Encoding
end

section
/-! The assembly (spec/30_encoding.md R50, R51): what a literal stands for, and the pseudo-operations through the addition primitive. -/

namespace Sys2Proof.Proofs.Assembly

open Sys2Proof Sys2Proof.Machine Sys2Proof.Proofs.Addition

/-! ## Literals and lines -/

theorem wellFormed_decimal_iff (m : Int) : (Literal.decimal m).wellFormed = true ↔ -128 ≤ m ∧ m ≤ 127 :=
  decide_eq_true_iff

theorem wellFormed_hex_iff (n : Nat) : (Literal.hex n).wellFormed = true ↔ n < 256 := decide_eq_true_iff

theorem wellFormed_binary_iff (n : Nat) : (Literal.binary n).wellFormed = true ↔ n < 256 := decide_eq_true_iff

/-- A well-formed decimal is the signed value of the byte it stands for. -/
theorem literalByte_decimal_toInt {m : Int} (hlow : -128 ≤ m) (hhigh : m ≤ 127) :
    (literalByte (.decimal m)).toInt = m := by
  rw [literalByte, BitVec.toInt_ofInt]
  exact Int.bmod_eq_of_le (by omega) (by omega)

theorem literalByte_hex_toNat {n : Nat} (h : n < 256) : (literalByte (.hex n)).toNat = n :=
  Nat.mod_eq_of_lt h

theorem literalByte_binary_toNat {n : Nat} (h : n < 256) : (literalByte (.binary n)).toNat = n :=
  Nat.mod_eq_of_lt h

/-- The carry operand has two spellings (R50, log 13). -/
theorem wellFormedCarry_iff (c : Literal) : c.wellFormedCarry = true ↔ c = .decimal 0 ∨ c = .decimal 1 := by
  cases c with
  | decimal n => simp [Literal.wellFormedCarry]
  | hex n => simp [Literal.wellFormedCarry]
  | binary n => simp [Literal.wellFormedCarry]

/-- A line of well-formed operands assembles to the request word of its instruction. -/
theorem assemble_of_wellFormed {line : Stmt} (h : line.wellFormed = true) :
    assemble line = some (encode (stmtInstr line)) := if_pos h

section Lines

variable {a b c : Literal}

theorem assemble_add (ha : a.wellFormed = true) (hb : b.wellFormed = true) (hc : c.wellFormedCarry = true) :
    assemble (.add a b c) = some (packRequest 0b00#2 (literalBit c) (literalByte a) (literalByte b)) :=
  assemble_of_wellFormed (by rw [Stmt.wellFormed, ha, hb, hc]; rfl)

theorem assemble_sub (ha : a.wellFormed = true) (hb : b.wellFormed = true) :
    assemble (.sub a b) = some (packRequest 0b01#2 false (literalByte a) (literalByte b)) :=
  assemble_of_wellFormed (by rw [Stmt.wellFormed, ha, hb]; rfl)

theorem assemble_mul (ha : a.wellFormed = true) (hb : b.wellFormed = true) :
    assemble (.mul a b) = some (packRequest 0b10#2 false (literalByte a) (literalByte b)) :=
  assemble_of_wellFormed (by rw [Stmt.wellFormed, ha, hb]; rfl)

theorem assemble_div (ha : a.wellFormed = true) (hb : b.wellFormed = true) :
    assemble (.div a b) = some (packRequest 0b11#2 false (literalByte a) (literalByte b)) :=
  assemble_of_wellFormed (by rw [Stmt.wellFormed, ha, hb]; rfl)

end Lines

/-- Settles O11: both forms parse by the parser's own equations, a line of well-formed operands assembles to the encoding of its
instruction, and a well-formed literal is within the byte that stands for it. -/
theorem assemblyFormsGiveTheTablesWords : Obligations.AssemblyFormsGiveTheTablesWords := by
  unfold Obligations.AssemblyFormsGiveTheTablesWords
  refine ⟨fun _ _ _ => ⟨rfl, rfl⟩, fun _ _ => ⟨rfl, rfl, rfl, rfl, rfl, rfl⟩, fun a b ha hb => ?lines,
    fun m hlow hhigh => ?decimal, fun n hn => ?pattern, wellFormedCarry_iff, rfl, rfl⟩
  case lines => exact ⟨fun c hc => assemble_add ha hb hc, assemble_sub ha hb, assemble_mul ha hb, assemble_div ha hb⟩
  case decimal => exact ⟨(wellFormed_decimal_iff m).mpr ⟨hlow, hhigh⟩, literalByte_decimal_toInt hlow hhigh⟩
  case pattern =>
    exact ⟨(wellFormed_hex_iff n).mpr hn, literalByte_hex_toNat hn, (wellFormed_binary_iff n).mpr hn,
      literalByte_binary_toNat hn⟩

/-! ## The pseudo-operations -/

/-- Adding zero with carry-in 1 increments. -/
theorem add8_zero_carry (x : Byte) : (add8 x 0x00#8 true).s = x + 1#8 := by
  rw [add8_s_eq_add, BitVec.add_zero]
  rfl

/-- The sign rule of subtraction is that of addition on the complemented subtrahend's sign (R60). -/
theorem subOvf_eq_addOvf_not (as bs ss : Bit) : subOvf as bs ss = addOvf as (!bs) ss := by
  revert as bs ss; decide

/-- R60: SUB_OVF agrees with the overflow bit of the inner addition. -/
theorem subOvf_eq_sub8_v (a b : Byte) :
    subOvf (a.getLsbD 7) (b.getLsbD 7) ((sub8 a b).s.getLsbD 7) = (sub8 a b).v := by
  have hsign : (~~~b).getLsbD 7 = !b.getLsbD 7 := by simp
  rw [subOvf_eq_addOvf_not, sub8_eq, add8_v, hsign]

/-- R51: subtracting from zero runs the negation `0 + ¬x + 1` of R63, in its result and in its overflow bit. -/
theorem exec_sub_from_zero (x : Byte) (s : State) :
    exec (.sub 0x00#8 x) s =
      .next (s.settle { y := neg8 x, ovf := (add8 0x00#8 (~~~x) true).v, dz := false }) := by
  rw [exec_sub, subOvf_eq_sub8_v, sub8_eq, neg8_eq]

/-- Settles O12: each pseudo-operation denotes its expansion; ADD8 and SUB8 give the increment and the decrement, and -128 is the
negation's overflowing operand. -/
theorem pseudoOperationsExpand : Obligations.PseudoOperationsExpand := by
  unfold Obligations.PseudoOperationsExpand
  intro s x z
  refine ⟨rfl, rfl, rfl, ⟨_, _, exec_add _ _ _ s, rfl, add8_zero_carry _⟩, ⟨_, _, exec_sub _ _ s, rfl, sub8_s_eq_sub _ _⟩,
    exec_sub_from_zero _ s, ?lowest⟩
  case lowest =>
    have hbyte : stmtInstr (.neg (.decimal (-128))) = .sub 0x00#8 0x80#8 := rfl
    have hneg : neg8 0x80#8 = 0x80#8 := neg8_eq_neg 0x80#8
    have hovf : (add8 0x00#8 (~~~0x80#8) true).v = true := by decide
    rw [hbyte, exec_sub_from_zero, hneg, hovf]

end Sys2Proof.Proofs.Assembly
end

section
/-! The addition primitive and ADD as the spec states them (spec/40_add.md R52 to R57): counted at one cell, along the chain, and over the
whole byte. -/

namespace Sys2Proof.Proofs.AddRules

open Sys2Proof Sys2Proof.Machine Sys2Proof.Proofs.Addition

/-! ## ADD -/

/-- Settles O19: ADD settles the sum and the overflow bit of ADD8, and both are known in signed arithmetic (R56). -/
theorem addCompletesWithWrappedSum : Obligations.AddCompletesWithWrappedSum := by
  unfold Obligations.AddCompletesWithWrappedSum
  intro a b cin s
  rw [exec_add, add8_s_eq_ofInt, add8_v_eq_outOfRange, State.settle, outOfRange]

/-! ## The carry chain -/

/-- The carry into cell i, counted: the low i bits of the operands and the carry-in do not fit i bits (R53). -/
theorem carryBit_iff (x y : Byte) (c0 : Bit) (i : Nat) :
    carryBit x y c0 i = true ↔ 2 ^ i ≤ x.toNat % 2 ^ i + y.toNat % 2 ^ i + c0.toNat := by
  rw [carryBit_eq_carry, BitVec.carry, decide_eq_true_iff, ge_iff_le]

/-- Settles O27: the chain is the carry of the word's own addition at every cell, so the bound of 8 is not needed. -/
theorem carryChainCarriesLowBits : Obligations.CarryChainCarriesLowBits := by
  unfold Obligations.CarryChainCarriesLowBits
  intro x y c0 i _
  exact carryBit_iff x y c0 i

/-! ## The arithmetic law -/

/-- R56, unsigned: the carry out of bit 7 is discarded. -/
theorem add8_s_toNat (x y : Byte) (c0 : Bit) :
    (add8 x y c0).s.toNat = (x.toNat + y.toNat + c0.toNat) % 256 := by
  have hcarry : ((BitVec.ofBool c0).setWidth 8).toNat = c0.toNat := by cases c0 <;> rfl
  rw [add8_s_eq_add, BitVec.toNat_add, BitVec.toNat_add, hcarry, Nat.mod_add_mod]

/-- Settles O29: the unsigned law, the signed law, and the overflow bit as the complement of the signed range. -/
theorem additionPrimitiveIsModularSum : Obligations.AdditionPrimitiveIsModularSum := by
  unfold Obligations.AdditionPrimitiveIsModularSum
  intro x y c0
  refine ⟨add8_s_toNat x y c0, add8_s_eq_ofInt x y c0, ?overflow⟩
  case overflow =>
    rw [add8_v_eq_outOfRange, outOfRange, decide_eq_true_iff]
    omega

/-! ## One cell -/

/-- Settles O26, on the eight rows of the full adder's truth table. -/
theorem fullAdderCountsOnes : Obligations.FullAdderCountsOnes := by
  unfold Obligations.FullAdderCountsOnes
  decide

/-! ## Overflow and carry out -/

/-- 127 + 1 leaves the signed range: the result's sign differs from both operands' (R55). -/
theorem add8_max_one : add8 127#8 1#8 false = { s := 0x80#8, v := true } := by decide

/-- -1 + 1 = 0 stays in the signed range: the operands' signs differ (R55). -/
theorem add8_neg_one_one : add8 0xFF#8 1#8 false = { s := 0x00#8, v := false } := by decide

/-- Settles O28: the unsigned sum 255 + 1 leaves the byte where 127 + 1 does not, and ADD settles the sums of ADD8. -/
theorem overflowIsNotTheCarryOut : Obligations.OverflowIsNotTheCarryOut := by
  unfold Obligations.OverflowIsNotTheCarryOut
  refine ⟨?noCarry, by rw [add8_max_one], ?carry, by rw [add8_neg_one_one], fun s => ⟨?max, ?negOne⟩⟩
  case noCarry => exact Bool.eq_false_iff.mpr fun h => absurd ((carryBit_iff _ _ _ _).mp h) (by decide)
  case carry => exact (carryBit_iff _ _ _ _).mpr (by decide)
  case max => rw [exec_add, add8_max_one]
  case negOne => rw [exec_add, add8_neg_one_one]

end Sys2Proof.Proofs.AddRules
end

section
/-! The subtraction primitive and SUB as the spec states them (spec/41_subtract.md R58 to R62): the wrapped difference, the sign rule as
the exact range check, and the flag of the inner addition. -/

namespace Sys2Proof.Proofs.SubRules

open Sys2Proof Sys2Proof.Machine Sys2Proof.Proofs.Addition Sys2Proof.Proofs.Assembly

/-- Settles O20: SUB settles the difference of SUB8 and SUB_OVF, and both are known in signed arithmetic (R61). -/
theorem subCompletesWithWrappedDifference : Obligations.SubCompletesWithWrappedDifference := by
  unfold Obligations.SubCompletesWithWrappedDifference
  intro a b s
  rw [exec_sub, subOvf_eq_outOfRange, sub8_s_eq_ofInt, State.settle, outOfRange]

/-- Settles O30: the signed law, and SUB_OVF as the complement of the signed range. -/
theorem subtractionIsModularDifference : Obligations.SubtractionIsModularDifference := by
  unfold Obligations.SubtractionIsModularDifference
  intro a b
  refine ⟨sub8_s_eq_ofInt a b, ?overflow⟩
  case overflow =>
    rw [subOvf_eq_outOfRange, outOfRange, decide_eq_true_iff]
    omega

/-- Settles O31: SUB8 adds the complement, whose sign is the opposite of the subtrahend's, and under that change of sign the rule of
addition is the rule of subtraction. -/
theorem innerFlagEqualsSubtractionRule : Obligations.InnerFlagEqualsSubtractionRule := by
  unfold Obligations.InnerFlagEqualsSubtractionRule
  intro a b
  exact (subOvf_eq_sub8_v a b).symm

end Sys2Proof.Proofs.SubRules
end

section
/-! The sign conversions as the spec states them (spec/42_sign_magnitude.md R63, R64, R66): negation modulo 256, the magnitude as an
unsigned byte, and the sign restored on demand. -/

namespace Sys2Proof.Proofs.SignRules

open Sys2Proof Sys2Proof.Machine Sys2Proof.Proofs.Addition

/-! ## Negation -/

/-- R63, unsigned: 0 is the one byte whose distance from 256 does not fit, and it wraps to itself. -/
theorem neg8_toNat (x : Byte) : (neg8 x).toNat = (256 - x.toNat) % 256 := by
  rw [neg8_eq_neg, BitVec.toNat_neg]

/-- Settles O32: the circuit is the addition of R63 by definition, it is the word's negation, and both fixed points are those of the
word's negation. -/
theorem negationIsModular : Obligations.NegationIsModular := by
  unfold Obligations.NegationIsModular
  exact ⟨fun x => ⟨neg8_eq x, neg8_toNat x⟩, neg8_eq_neg 0x00#8, neg8_eq_neg 0x80#8⟩

/-! ## The magnitude -/

theorem mag_m_of_negative {x : Byte} (hn : (mag x).n = true) : (mag x).m = neg8 x := by
  rw [mag_m, ← mag_n, if_pos hn]

theorem mag_m_of_nonnegative {x : Byte} (hn : (mag x).n = false) : (mag x).m = x := by
  rw [mag_m, ← mag_n, hn, if_neg Bool.false_ne_true]

/-- R64: read without a sign, the magnitude is the absolute value; at -128 it is 128 (R65). -/
theorem mag_m_toNat (x : Byte) : ((mag x).m.toNat : Int) = |x.toInt| := by
  have hlt : x.toNat < 256 := x.isLt
  rw [mag_m_eq_abs, BitVec.toNat_abs, BitVec.toInt_eq_msb_cond]
  cases x.msb with
  | true =>
    have hneg : (x.toNat : Int) - 256 < 0 := by omega
    calc ((256 - x.toNat : Nat) : Int) = -((x.toNat : Int) - 256) := by omega
      _ = |(x.toNat : Int) - 256| := (abs_of_neg hneg).symm
  | false => exact (Nat.abs_cast x.toNat).symm

/-- Settles O33: the flag is the sign bit, each sign takes its branch of MAG, and the magnitude is the word's absolute value. -/
theorem magnitudeIsAbsoluteValue : Obligations.MagnitudeIsAbsoluteValue := by
  unfold Obligations.MagnitudeIsAbsoluteValue
  intro x
  exact ⟨mag_n x, mag_m_of_negative, mag_m_of_nonnegative, mag_m_toNat x⟩

/-! ## Restoring the sign -/

/-- R66: with the sign to restore, the byte is the negated magnitude, wrapped. -/
theorem restore_true_eq_ofInt (m : Byte) : restore m true = BitVec.ofInt 8 (-(m.toNat : Int)) := by
  rw [restore_true, neg8_eq_neg, BitVec.ofInt_neg, BitVec.ofInt_natCast, BitVec.ofNat_toNat, BitVec.setWidth_eq]

/-- Settles O34: the two branches of RESTORE, and negation as the wrapped negative of the magnitude. -/
theorem restoreNegatesOnDemand : Obligations.RestoreNegatesOnDemand := by
  unfold Obligations.RestoreNegatesOnDemand
  intro m
  exact ⟨restore_true m, restore_true_eq_ofInt m, restore_false m⟩

end Sys2Proof.Proofs.SignRules
end

section
/-! The multiplier and MUL as the spec states them (spec/43_multiply.md R70 to R75): the running total, the low byte and the full width of
the product, and the overflow test on its top bits. -/

namespace Sys2Proof.Proofs.MulRules

open Sys2Proof Sys2Proof.Machine Sys2Proof.Proofs.Addition Sys2Proof.Proofs.Multiplication

/-! ## The running total and its low byte -/

/-- Settles O35: start and step are the recursion itself; the law of the low bits holds after any number of additions, and after eight
the low bits are the whole multiplier. -/
theorem multiplierAccumulatesLowBits : Obligations.MultiplierAccumulatesLowBits := by
  unfold Obligations.MultiplierAccumulatesLowBits
  intro ma mb
  refine ⟨accumulate_zero ma mb, fun i _ => accumulate_succ ma mb i, fun i _ => accumulate_toNat ma mb i, ?whole⟩
  case whole => rw [accumulate_eight, BitVec.toNat_mul]

/-- Settles O36: restoring the sign of the total gives the product of the signed operands, wrapped. -/
theorem productIsLowByteOfExact : Obligations.ProductIsLowByteOfExact := by
  unfold Obligations.ProductIsLowByteOfExact
  exact prod8_eq_ofInt

/-! ## The full product -/

/-- R73: the least product is -128 · 127 and the greatest is -128 · -128. -/
theorem product_range (a b : Byte) : -16256 ≤ a.toInt * b.toInt ∧ a.toInt * b.toInt ≤ 16384 := by
  obtain ⟨hal, hah⟩ := toInt_range a
  obtain ⟨hbl, hbh⟩ := toInt_range b
  have hlow : 0 ≤ (a.toInt + 128) * (b.toInt + 128) := Int.mul_nonneg (by omega) (by omega)
  have hhigh : 0 ≤ (127 - a.toInt) * (127 - b.toInt) := Int.mul_nonneg (by omega) (by omega)
  exact ⟨by linarith, BitVec.toInt_mul_toInt_le⟩

/-- Wrapping at sixteen bits keeps the low byte. -/
theorem lowByte_ofInt (k : Int) : (BitVec.ofInt 16 k).extractLsb' 0 8 = BitVec.ofInt 8 k := by
  apply BitVec.eq_of_toNat_eq
  rw [BitVec.extractLsb'_toNat, Nat.shiftRight_zero, BitVec.toNat_ofInt, BitVec.toNat_ofInt]
  omega

/-- R73: the low byte of the full product is the multiplier's result. -/
theorem p16_lowByte (a b : Byte) : (p16 a b).extractLsb' 0 8 = prod8 a b := by
  rw [p16, lowByte_ofInt, prod8_eq_ofInt]

/-- Settles O37: sixteen bits hold the product, so its range is that of the exact product, and the low byte survives the wrapping. -/
theorem fullProductIsExact : Obligations.FullProductIsExact := by
  unfold Obligations.FullProductIsExact
  intro a b
  obtain ⟨hlow, hhigh⟩ := product_range a b
  rw [p16_toInt]
  exact ⟨rfl, hlow, hhigh, p16_lowByte a b⟩

/-! ## Overflow -/

/-- The bits `p[15:7]` read without a sign. -/
theorem topBits_toNat (p : Product16) : (p.extractLsb' 7 9).toNat = p.toNat / 128 := by
  have hp : p.toNat < 2 ^ 16 := p.isLt
  rw [BitVec.extractLsb'_toNat, Nat.shiftRight_eq_div_pow]
  exact Nat.mod_eq_of_lt (by omega)

/-- The top bits are all zeros on the nonnegative values of a signed byte. -/
theorem topBits_eq_zeros_iff (p : Product16) :
    p.extractLsb' 7 9 = 0b000000000#9 ↔ 0 ≤ p.toInt ∧ p.toInt ≤ 127 := by
  have hp : p.toNat < 2 ^ 16 := p.isLt
  rw [← BitVec.toNat_inj, topBits_toNat, BitVec.toNat_ofNat, BitVec.toInt_eq_toNat_cond]
  split <;> omega

/-- The top bits are all ones on the negative values of a signed byte. -/
theorem topBits_eq_ones_iff (p : Product16) :
    p.extractLsb' 7 9 = 0b111111111#9 ↔ -128 ≤ p.toInt ∧ p.toInt < 0 := by
  have hp : p.toNat < 2 ^ 16 := p.isLt
  rw [← BitVec.toNat_inj, topBits_toNat, BitVec.toNat_ofNat, BitVec.toInt_eq_toNat_cond]
  split <;> omega

/-- R74: the product does not fit a signed byte exactly when its top bits are mixed. -/
theorem topBits_mixed_iff (p : Product16) :
    p.extractLsb' 7 9 ≠ 0b000000000#9 ∧ p.extractLsb' 7 9 ≠ 0b111111111#9 ↔ p.toInt < -128 ∨ p.toInt > 127 := by
  rw [ne_eq, ne_eq, topBits_eq_zeros_iff, topBits_eq_ones_iff]
  omega

/-- R74: under ENHANCED the flag tests the full product. -/
theorem mulOvf_enhanced_iff (a b : Byte) :
    mulOvf .enhanced a b = true ↔ (p16 a b).toInt < -128 ∨ (p16 a b).toInt > 127 := by
  rw [mulOvf_enhanced, decide_eq_true_iff]

/-- Settles O38: SOURCE reports nothing and is the default; under ENHANCED the flag is the range test on `p16`, which is the exact product
and whose top bits tell the same. -/
theorem mulOverflowFollowsPolicy : Obligations.MulOverflowFollowsPolicy := by
  unfold Obligations.MulOverflowFollowsPolicy
  refine ⟨rfl, fun a b => ⟨mulOvf_source a b, mulOvf_enhanced_iff a b, ?exact, ?topBits⟩⟩
  case exact => rw [mulOvf_enhanced_iff, p16_toInt]
  case topBits => exact (mulOvf_enhanced_iff a b).trans (topBits_mixed_iff _).symm

/-! ## MUL -/

/-- Settles O21: MUL settles `prod8` and MUL_OVF, and both are known in signed arithmetic (R72, R74). -/
theorem mulCompletesWithLowByteOfProduct : Obligations.MulCompletesWithLowByteOfProduct := by
  unfold Obligations.MulCompletesWithLowByteOfProduct
  intro a b s
  rw [exec_mul, prod8_eq_ofInt, mulOvf_eq_outOfRange, outOfRange, ← Bool.decide_and, State.settle]

end Sys2Proof.Proofs.MulRules
end

section
/-! The divider and DIV as the spec states them (spec/44_divide.md R81 to R87): the partial remainder that each trial keeps, the one
quotient that does not fit, and the datapath on a zero divisor. -/

namespace Sys2Proof.Proofs.DivRules

open Sys2Proof Sys2Proof.Machine Sys2Proof.Proofs.Addition Sys2Proof.Proofs.Division Sys2Proof.Proofs.SignRules
open Sys2Proof.Proofs.Soundness

/-! ## Bit 7 of a byte -/

/-- Read without a sign, bit 7 weighs 128. -/
theorem getLsbD_seven_iff (x : Byte) : x.getLsbD 7 = true ↔ 128 ≤ x.toNat := by
  have hmsb : x.getLsbD 7 = x.msb := (BitVec.msb_eq_getLsbD_last x).symm
  rw [hmsb, BitVec.msb_eq_decide, decide_eq_true_iff]

/-- Bit 14 of the register is bit 7 of its left half (R77). -/
theorem leftHalf_getLsbD_seven (w : WorkReg) : (leftHalf w).getLsbD 7 = w.getLsbD 14 := by
  rw [leftHalf, BitVec.getLsbD_extractLsb', decide_eq_true (by omega : 7 < 8), Bool.true_and]

/-- R78: the divisor fits when the trial difference has bit 7 clear. -/
theorem trialFits_iff (mb : Byte) (w : WorkReg) : trialFits mb w = true ↔ (trialDiff mb w).getLsbD 7 = false := by
  rw [trialFits, Bool.not_eq_true']

/-! ## The partial remainder -/

section Divisor

variable {ma mb : Byte} {k : Nat}

/-- R81: after trial k the left half is the remainder of the dividend's top k + 1 bits. -/
theorem leftHalf_trialKeep_workReg (hpos : 0 < mb.toNat) (hmb : mb.toNat ≤ 128) (hk : k < 8) :
    (leftHalf (trialKeep mb (workReg ma mb k))).toNat = ma.toNat / 2 ^ (7 - k) % mb.toNat := by
  have hreg : RegisterHolds ma mb k (workReg ma mb k) := registerHolds_workReg hpos hmb (by omega)
  have hrem : ma.toNat / 2 ^ (7 - k) % mb.toNat = (leftHalf (workReg ma mb k)).toNat % mb.toNat := by
    rw [dividend_top_succ ma hk, (hreg.halves hk).1, (longDivision_digit hpos (by omega)).1]
  rw [hrem, leftHalf_toNat, trialKeep_toNat hmb (hreg.left_lt hpos hk)]
  omega

/-- R81: the next trial's left half is the kept remainder with the next bit of the dividend brought down. -/
theorem leftHalf_workReg_succ (hpos : 0 < mb.toNat) (hmb : mb.toNat ≤ 128) (hk : k < 7) :
    (leftHalf (workReg ma mb (k + 1))).toNat =
      2 * (leftHalf (trialKeep mb (workReg ma mb k))).toNat + (ma.getLsbD (6 - k)).toNat := by
  have hreg : RegisterHolds ma mb (k + 1) (workReg ma mb (k + 1)) := registerHolds_workReg hpos hmb (by omega)
  have hbit : (ma.getLsbD (6 - k)).toNat = ma.toNat / 2 ^ (6 - k) % 2 := Nat.toNat_testBit _ _
  rw [(hreg.halves (by omega)).1, leftHalf_trialKeep_workReg hpos hmb (by omega), hbit,
    show 8 - (k + 1) = 7 - k by omega, show 7 - (k + 1) = 6 - k by omega]

/-- R81: the sign bit of the trial difference compares the left half with the divisor. -/
theorem trialDiff_sign_iff (hpos : 0 < mb.toNat) (hmb : mb.toNat ≤ 128) (hk : k < 8) :
    (trialDiff mb (workReg ma mb k)).getLsbD 7 = true ↔ (leftHalf (workReg ma mb k)).toNat < mb.toNat := by
  have hreg : RegisterHolds ma mb k (workReg ma mb k) := registerHolds_workReg hpos hmb (by omega)
  have hfits := trialFits_iff mb (workReg ma mb k)
  rw [trialFits_eq_decide hmb (hreg.left_lt hpos hk), decide_eq_true_iff] at hfits
  rw [← Bool.not_eq_false, ← hfits, not_le]

/-- R83: the divider leaves the remainder of the magnitudes. -/
theorem remainderMag_toNat (hpos : 0 < mb.toNat) (hmb : mb.toNat ≤ 128) :
    (remainderMag ma mb).toNat = ma.toNat % mb.toNat := by
  rw [remainderMag, leftHalf_trialKeep_workReg hpos hmb (by omega), Nat.sub_self, Nat.pow_zero, Nat.div_one]

end Divisor

/-- R77: the first trial sees bit 7 of the dividend's magnitude alone. -/
theorem leftHalf_workReg_start (ma mb : Byte) : (leftHalf (workReg ma mb 0)).toNat = (ma.getLsbD 7).toNat := by
  have hlt : ma.toNat < 256 := ma.isLt
  have hbit : (ma.getLsbD 7).toNat = ma.toNat / 2 ^ 7 % 2 := Nat.toNat_testBit _ _
  rw [leftHalf_toNat, workReg_zero, BitVec.toNat_setWidth, hbit]
  omega

/-- Settles O39: each kept remainder is that of the dividend's top bits, so it is below the divisor, bit 14 is clear, and the last one is
the whole remainder; the trial bits are the digits of the quotient. -/
theorem dividerTrialsAreExact : Obligations.DividerTrialsAreExact := by
  unfold Obligations.DividerTrialsAreExact
  intro ma mb hne hmb _
  have hpos : 0 < mb.toNat := Nat.pos_of_ne_zero fun h => hne (BitVec.eq_of_toNat_eq h)
  have hkept (k : Nat) (hk : k < 8) : (leftHalf (trialKeep mb (workReg ma mb k))).toNat < mb.toNat :=
    leftHalf_trialKeep_workReg (ma := ma) hpos hmb hk ▸ Nat.mod_lt _ hpos
  refine ⟨fun k hk => ⟨trialDiff_sign_iff hpos hmb hk, hkept k hk, ?top⟩, leftHalf_workReg_start ma mb,
    fun k hk => leftHalf_workReg_succ hpos hmb hk, ?quotient, remainderMag_toNat hpos hmb⟩
  case top =>
    rw [← leftHalf_getLsbD_seven, ← Bool.not_eq_true, getLsbD_seven_iff]
    exact not_le.mpr ((hkept k hk).trans_le hmb)
  case quotient => rw [quotientMag_eq_udiv hpos hmb, BitVec.toNat_udiv]

/-! ## The quotient and its overflow -/

/-- R86: signed division of words is exact but for -128 ÷ -1, so no other quotient exceeds 127. -/
theorem tdiv_gt_iff (a b : Byte) : a.toInt.tdiv b.toInt > 127 ↔ a = 0x80#8 ∧ b = 0xFF#8 := by
  constructor
  · intro hgt
    by_contra hother
    have hexact : (a.sdiv b).toInt = a.toInt.tdiv b.toInt :=
      BitVec.toInt_sdiv_of_ne_or_ne a b (not_and_or.mp hother)
    obtain ⟨-, hhigh⟩ := toInt_range (a.sdiv b)
    omega
  · rintro ⟨rfl, rfl⟩
    decide

/-- R82: the true quotient leaves the signed range at -128 ÷ -1 only. -/
theorem tdiv_outOfRange_iff (a b : Byte) :
    ¬ (-128 ≤ a.toInt.tdiv b.toInt ∧ a.toInt.tdiv b.toInt ≤ 127) ↔ a.toInt = -128 ∧ b.toInt = -1 := by
  have hlow := neg_128_le_tdiv a b
  have hlowest : a = 0x80#8 ↔ a.toInt = -128 := BitVec.toInt_inj.symm
  have hminusOne : b = 0xFF#8 ↔ b.toInt = -1 := BitVec.toInt_inj.symm
  rw [← hlowest, ← hminusOne, ← tdiv_gt_iff]
  omega

/-- R86: a quotient is no larger than its dividend. -/
theorem abs_tdiv_le (m n : Int) : |m.tdiv n| ≤ |m| := by
  rw [Int.abs_eq_natAbs, Int.abs_eq_natAbs, Int.ofNat_le]
  exact Int.natAbs_tdiv_le_natAbs m n

/-- R86: under ENHANCED the flag marks -128 ÷ -1 and nothing else. -/
theorem divOvf_enhanced_iff (a : Byte) {b : Byte} (hb : b ≠ 0x00#8) :
    divOvf .enhanced a b = true ↔ a = 0x80#8 ∧ b = 0xFF#8 := by
  rw [divOvf_enhanced hb, decide_eq_true_iff, tdiv_gt_iff]

/-- R86: the flag under either policy. -/
theorem divOvf_eq_decide (policy : OvfPolicy) (a : Byte) {b : Byte} (hb : b ≠ 0x00#8) :
    divOvf policy a b = decide (policy = .enhanced ∧ a = 0x80#8 ∧ b = 0xFF#8) := by
  cases policy with
  | source => exact (divOvf_source a b).trans (decide_eq_false fun ⟨h, _⟩ => nomatch h).symm
  | enhanced => rw [Bool.eq_iff_iff, divOvf_enhanced_iff a hb, decide_eq_true_iff, and_iff_right rfl]

/-- Settles O40: the trials and the restored sign are signed division, and its only wrapping pair is evaluated. -/
theorem quotientIsTruncatedTowardZero : Obligations.QuotientIsTruncatedTowardZero := by
  unfold Obligations.QuotientIsTruncatedTowardZero
  refine ⟨fun a b hb => ⟨quo8_eq_ofInt hb, tdiv_outOfRange_iff a b⟩, ?wraps⟩
  case wraps => exact quo8_eq_sdiv (by decide)

/-- Settles O43: SOURCE and a zero divisor report nothing; under ENHANCED the flag is the range test, which one pair meets. -/
theorem divOverflowFollowsPolicy : Obligations.DivOverflowFollowsPolicy := by
  unfold Obligations.DivOverflowFollowsPolicy
  refine ⟨rfl, fun a b => ⟨fun p => divOvf_zero p a, divOvf_source a b, fun hb => ?divisor⟩⟩
  case divisor =>
    refine ⟨?exceeds, divOvf_enhanced_iff a hb, abs_tdiv_le _ _, neg_128_le_tdiv a b⟩
    case exceeds => rw [divOvf_enhanced hb, decide_eq_true_iff]

/-! ## The remainder -/

/-- R64: the magnitude as the absolute value of the operand. -/
theorem mag_m_toNat_eq_natAbs (x : Byte) : (mag x).m.toNat = x.toInt.natAbs :=
  Int.ofNat_inj.mp ((mag_m_toNat x).trans (Int.abs_eq_natAbs _))

/-- Settles O41: truncation takes the remainder of the absolute values, and those are the magnitudes. -/
theorem internalRemainderIsTruncatedRemainder : Obligations.InternalRemainderIsTruncatedRemainder := by
  unfold Obligations.InternalRemainderIsTruncatedRemainder
  intro a b hb
  obtain ⟨hpos, hle⟩ := abs_toNat_bounds hb
  rw [← mag_m_eq_abs] at hpos hle
  have hrem : (remainderMag (mag a).m (mag b).m).toNat = (mag a).m.toNat % (mag b).m.toNat :=
    remainderMag_toNat hpos hle
  refine ⟨hrem, ?truncated⟩
  case truncated =>
    rw [hrem, mag_m_toNat_eq_natAbs, mag_m_toNat_eq_natAbs, ← Int.natAbs_tmod, Int.abs_eq_natAbs]

/-! ## The zero divisor -/

/-- R84: a zero divisor leaves the left half as the trial difference. -/
theorem trialDiff_zero (w : WorkReg) : trialDiff 0x00#8 w = leftHalf w := by
  rw [trialDiff_eq_sub, BitVec.sub_zero]

/-- R84: the left half takes the dividend's magnitude in from the top. -/
theorem leftHalf_workReg_zero_divisor (ma : Byte) {k : Nat} (hk : k < 8) :
    (leftHalf (workReg ma 0x00#8 k)).toNat = ma.toNat >>> (7 - k) := by
  have hlt : ma.toNat < 2 ^ 8 := ma.isLt
  have hwide : ma.toNat % 2 ^ 15 = ma.toNat := Nat.mod_eq_of_lt (by omega)
  have hweight : 128 = 2 ^ (7 - k) * 2 ^ k := by rw [← Nat.pow_add, show 7 - k + k = 7 by omega]
  have hfits : ma.toNat * 2 ^ k < 2 ^ 15 :=
    calc ma.toNat * 2 ^ k < 2 ^ 8 * 2 ^ k := Nat.mul_lt_mul_of_pos_right hlt (Nat.two_pow_pos k)
      _ ≤ 2 ^ 8 * 2 ^ 7 := Nat.mul_le_mul_left _ (Nat.pow_le_pow_right (by omega) (by omega))
  rw [leftHalf_toNat, workReg_zero_divisor, BitVec.toNat_shiftLeft, BitVec.toNat_setWidth, hwide,
    Nat.shiftLeft_eq, Nat.mod_eq_of_lt hfits, hweight, Nat.mul_div_mul_right _ _ (Nat.two_pow_pos k), Nat.shiftRight_eq_div_pow]

/-- R84: the left half of a magnitude reaches 128 in the last trial and for the magnitude 128 only. -/
theorem leftHalf_zero_divisor_sign_iff {ma : Byte} (hma : ma.toNat ≤ 128) {k : Nat} (hk : k < 8) :
    (leftHalf (workReg ma 0x00#8 k)).getLsbD 7 = true ↔ k = 7 ∧ ma = 0x80#8 := by
  have hbyte : ma = 0x80#8 ↔ ma.toNat = 128 := BitVec.toNat_inj.symm
  rw [getLsbD_seven_iff, leftHalf_workReg_zero_divisor ma hk, Nat.shiftRight_eq_div_pow, hbyte]
  rcases Nat.lt_succ_iff_lt_or_eq.mp hk with hearly | rfl
  · have hhalf : ma.toNat / 2 ^ (7 - k) ≤ ma.toNat / 2 ^ 1 :=
      Nat.div_le_div_left (Nat.pow_le_pow_right (by omega) (by omega)) (by omega)
    omega
  · omega

/-- R65: a magnitude is at most 128. -/
theorem mag_m_le (x : Byte) : (mag x).m.toNat ≤ 128 := by
  obtain ⟨hlow, hhigh⟩ := toInt_range x
  rw [mag_m_toNat_eq_natAbs]
  omega

/-- R84: the raw quotient magnitude tells -128 from every other dividend. -/
theorem quotientMag_mag_zero_divisor (a : Byte) :
    quotientMag (mag a).m 0x00#8 = if a = 0x80#8 then 0xFE#8 else 0xFF#8 := by
  rw [quotientMag_zero_divisor, mag_m_eq_abs, abs_getLsbD_seven]
  simp only [decide_eq_true_iff]

/-- Settles O42: the register only shifts, so its left half is a top part of the dividend's magnitude, which has bit 7 set at 128 alone; the
raw quotients are those of `rawDivZero`, sign by sign. -/
theorem rawDivisionByZero : Obligations.RawDivisionByZero := by
  unfold Obligations.RawDivisionByZero
  refine ⟨mag_m_eq_abs 0x00#8, congrArg (~~~·) (mag_m_eq_abs 0x00#8), fun a =>
    ⟨fun k hk => ⟨trialDiff_zero _, leftHalf_workReg_zero_divisor _ hk, ?fits, leftHalf_zero_divisor_sign_iff (mag_m_le a) hk⟩,
      ?ones, ?lastClear, ?nonneg, ?negative, ?lowest⟩⟩
  case fits => rw [trialFits_iff, trialDiff_zero]
  case ones => exact fun hne => (quotientMag_mag_zero_divisor a).trans (if_neg hne)
  case lastClear => exact fun heq => (quotientMag_mag_zero_divisor a).trans (if_pos heq)
  case nonneg => exact fun hnonneg => (quo8_zero_divisor a).trans (if_pos hnonneg)
  case negative =>
    rintro ⟨hlow, hhigh⟩
    have hne : a ≠ 0x80#8 := fun h => absurd (h ▸ hlow) (by decide)
    rw [quo8_zero_divisor, rawDivZero, if_neg (by omega), if_neg hne]
  case lowest => exact fun heq => heq ▸ quo8_zero_divisor 0x80#8

/-! ## DIV -/

/-- Settles O22: DIV settles the truncated quotient and DIV_OVF, and the divisor is not zero. -/
theorem divCompletesTruncatedTowardZero : Obligations.DivCompletesTruncatedTowardZero := by
  unfold Obligations.DivCompletesTruncatedTowardZero
  intro a b s hb
  have hdz : divisionByZero b = false := decide_eq_false hb
  rw [exec_div, divResult_of_ne_zero _ a hb, divOvf_eq_decide _ a hb, hdz, State.settle]

/-- R85: what DIV by zero settles, with `y` still to be selected by the mode. -/
theorem exec_div_zero (a : Byte) (s : State) :
    exec (.div a 0x00#8) s = .next (s.settle { y := divResult s.config.div0 a 0x00#8, ovf := false, dz := true }) := by
  rw [exec_div, divOvf_zero, (divisionByZero_iff _).mpr rfl]

/-- R85: ZERO shows 0. -/
@[simp] theorem divResult_zero_zero (a : Byte) : divResult .zero a 0x00#8 = 0x00#8 := rfl

/-- R85: RAW shows what the datapath forms. -/
@[simp] theorem divResult_raw_zero (a : Byte) : divResult .raw a 0x00#8 = quo8 a 0x00#8 := rfl

/-- Settles O23: the mode selects `y`; `ovf` and `dz` are the same under every build. -/
theorem divByZeroCompletesByMode : Obligations.DivByZeroCompletesByMode := by
  unfold Obligations.DivByZeroCompletesByMode
  refine ⟨rfl, fun a s => ⟨fun hmode => ?zero, fun hmode => ?raw⟩⟩
  case zero => rw [exec_div_zero, hmode, divResult_zero_zero, State.settle]
  case raw => rw [exec_div_zero, hmode, divResult_raw_zero, State.settle]

end Sys2Proof.Proofs.DivRules
end

section
/-! The output mux (spec/45_output_mux.md R88 to R93). A transaction leaves UNIT of its request, which is the integer reference of the decoded
instruction; the status it reports is read from those outputs alone. -/

namespace Sys2Proof.Proofs.OutputMux

open Sys2Proof Sys2Proof.Machine Sys2Proof.Proofs.Ports Sys2Proof.Proofs.Soundness Sys2Proof.Proofs.Sequence
  Sys2Proof.Proofs.Encoding

/-! ## The frame and the invariant -/

/-- The outputs are all that settling changes. -/
theorem eq_with_outputs_of_settle {s t : State} {o : Outputs} (h : t = s.settle o) :
    t = { s with outputs := t.outputs } := by
  subst h; rfl

/-- Settles O17: an operation, and a step that completes, settles the outputs and does nothing else. -/
theorem operationsChangeOnlyTheOutputs : Obligations.OperationsChangeOnlyTheOutputs := by
  unfold Obligations.OperationsChangeOnlyTheOutputs
  refine ⟨fun i s t hexec => ?operation, fun s t hstep => ?step⟩
  case operation =>
    obtain ⟨o, hsettles⟩ := exec_settles i s
    exact eq_with_outputs_of_settle (Host.Outcome.next.inj (hexec.symm.trans hsettles))
  case step =>
    obtain ⟨w, -, hsettles⟩ := (step_eq_next_iff s t).mp hstep
    exact eq_with_outputs_of_settle hsettles

/-- Settles O52: a step settles the reference of the levels at its inputs, and driving keeps outputs only where it changes no level. -/
theorem stepKeepsOutputsCurrent : Obligations.StepKeepsOutputsCurrent := by
  unfold Obligations.StepKeepsOutputsCurrent
  exact ⟨fun _ _ _ hstep => step_outputsCurrent hstep, fun _ i hcurrent => drive_outputsCurrent i hcurrent⟩

/-! ## What a transaction leaves -/

/-- Settles O24: the request that is presented unpacks to the fields it was packed from, at the ports and in UNIT. -/
theorem transactionIsUnit : Obligations.TransactionIsUnit := by
  unfold Obligations.TransactionIsUnit
  intro s op a b cin
  rw [transact_eq_unitOf, ofRequest_packRequest, unitOf_packRequest]

/-- The whole state that a transaction leaves, with the outputs of the integer reference. -/
theorem transact_eq_reference (s : State) (w : RequestWord) :
    s.transact w =
      .next { config := s.config, inputs := Inputs.ofRequest w, outputs := some (reference s.config (decode w)) } := by
  rw [State.transact_eq, exec_eq_reference, State.present_config, present_settle]

/-- Settles O25: each operation's datapath computes the reference (`exec_eq_reference`), on the state that presents the request. -/
theorem datapathRefinesIntegerArithmetic : Obligations.DatapathRefinesIntegerArithmetic := by
  unfold Obligations.DatapathRefinesIntegerArithmetic
  exact transact_eq_reference

/-! ## Division by zero -/

/-- R91: UNIT drives `dz` from the operation code and the divisor alone. -/
theorem unit_dz_iff (c : Config) (op : BitVec 2) (a b : Byte) (cin : Bit) :
    (unit c op a b cin).dz = true ↔ op = 0b11#2 ∧ b = 0x00#8 := by
  rcases opCode_cases op with rfl | rfl | rfl | rfl
  · exact iff_of_false Bool.false_ne_true (by simp)
  · exact iff_of_false Bool.false_ne_true (by simp)
  · exact iff_of_false Bool.false_ne_true (by simp)
  · rw [unit_div c rfl, divisionByZero_iff, and_iff_right rfl]

/-- Settles O44: a transaction's `dz` is UNIT's. -/
theorem divisionByZeroStatusIsExact : Obligations.DivisionByZeroStatusIsExact := by
  unfold Obligations.DivisionByZeroStatusIsExact
  intro s op a b cin
  exact ⟨_, _, transactionIsUnit s op a b cin, rfl, unit_dz_iff s.config op a b cin⟩

/-! ## The tagged view -/

theorem status_of_dz {o : Outputs} (hdz : o.dz = true) : o.status = .divisionByZero := if_pos hdz

theorem status_of_ovf {o : Outputs} (hdz : o.dz = false) (hovf : o.ovf = true) : o.status = .overflow := by
  simp [Outputs.status, hdz, hovf]

theorem status_of_neither {o : Outputs} (hdz : o.dz = false) (hovf : o.ovf = false) : o.status = .ok o.y := by
  simp [Outputs.status, hdz, hovf]

/-- R93: where `dz` and `ovf` are not both 1, each view stands for exactly one of the three conditions, and `ovf` may be tested first. -/
theorem status_of_not_both {o : Outputs} (h : ¬ (o.ovf = true ∧ o.dz = true)) :
    (o.status = .divisionByZero ↔ o.dz = true) ∧
      (o.status = .overflow ↔ o.ovf = true) ∧
      (∀ v, o.status = .ok v ↔ o.dz = false ∧ o.ovf = false ∧ v = o.y) ∧
      o.status = if o.ovf then .overflow else if o.dz then .divisionByZero else .ok o.y := by
  cases hdz : o.dz with
  | true =>
    have hovf : o.ovf = false := Bool.eq_false_of_not_eq_true fun hovf => h ⟨hovf, hdz⟩
    simp [status_of_dz hdz, hovf]
  | false =>
    cases hovf : o.ovf with
    | true => simp [status_of_ovf hdz hovf]
    | false => simp [status_of_neither hdz hovf, eq_comm]

/-- Settles O46: the outputs are the reference's, which never reports both conditions (R86, R97). -/
theorem taggedViewDoesNotDependOnTestOrder : Obligations.TaggedViewDoesNotDependOnTestOrder := by
  unfold Obligations.TaggedViewDoesNotDependOnTestOrder
  intro s w
  exact ⟨_, _, transact_eq_reference s w, rfl, status_of_not_both (reference_oneStatus s.config (decode w))⟩

end Sys2Proof.Proofs.OutputMux
end

section
/-! Exceptions and simultaneous conditions (spec/60_exceptions.md R94, R97). Every operation answers a next state; only DIV drives `dz`,
and it does so on the divisor for which its overflow rule is 0 (spec/44_divide.md R86). -/

namespace Sys2Proof.Proofs.Exceptions

open Sys2Proof Sys2Proof.Machine Sys2Proof.Proofs.Soundness

/-! ## The invariant -/

/-- Settles O53: the outputs that a step leaves are current whatever was there before (`step_outputsCurrent`), so the
state before the step need not be asked, and current outputs report one condition at most. -/
theorem stepKeepsOneStatus : Obligations.StepKeepsOneStatus := by
  unfold Obligations.StepKeepsOneStatus
  intro s t _ hstep
  have hcurrent : t.outputsCurrent := step_outputsCurrent hstep
  exact oneStatus_of_outputsCurrent hcurrent

/-! ## One operation's conditions -/

/-- ADD, SUB and MUL tie `dz` to 0 (R91). -/
theorem report_of_dz_false {i : Instr} {o : Outputs} (h : o.dz = false) :
    o.dz = true → o.ovf = false ∧ ∃ a, i = .div a 0x00#8 :=
  fun hdz => absurd (h.symm.trans hdz) Bool.false_ne_true

/-- Settles O45: only DIV can drive `dz`, and then its divisor is 0, on which it reports no overflow under any policy (R86). -/
theorem atMostOneConditionIsReported : Obligations.AtMostOneConditionIsReported := by
  unfold Obligations.AtMostOneConditionIsReported
  intro i s
  cases i with
  | add a b cin => exact ⟨_, _, exec_add a b cin s, rfl, report_of_dz_false rfl⟩
  | sub a b => exact ⟨_, _, exec_sub a b s, rfl, report_of_dz_false rfl⟩
  | mul a b => exact ⟨_, _, exec_mul a b s, rfl, report_of_dz_false rfl⟩
  | div a b =>
    refine ⟨_, _, exec_div a b s, rfl, fun hdz => ?_⟩
    obtain rfl : b = 0x00#8 := (divisionByZero_iff b).mp hdz
    exact ⟨divOvf_zero s.config.divOvf a, a, rfl⟩

/-! ## No exception path -/

/-- Settles O16: every operation settles outputs, and a step runs one operation or refuses an undriven port. -/
theorem noOperationFaultsOrIsRefused : Obligations.NoOperationFaultsOrIsRefused := by
  unfold Obligations.NoOperationFaultsOrIsRefused
  refine ⟨fun i s => ?operation, fun s f => ?step⟩
  case operation =>
    obtain ⟨o, hsettles⟩ := exec_settles i s
    exact ⟨s.settle o, hsettles⟩
  case step =>
    rcases step_cases s with ⟨_, o, _, _, hnext⟩ | ⟨p, _, hrefused⟩
    · simp [hnext]
    · simp [hrefused]

end Sys2Proof.Proofs.Exceptions
end

section
/-! The round trip of the request word (spec/30_encoding.md R43, R47, R50): the encoder packs the operation's code and operands, and the
decoder reads each packed field back. -/

namespace Sys2Proof.Proofs.RoundTrip

open Sys2Proof Sys2Proof.Machine Sys2Proof.Proofs.Ports Sys2Proof.Proofs.Encoding

/-! ## Decoding an encoded instruction -/

/-- Packing and unpacking lose no operand; the carry-in that SUB, MUL and DIV are packed with is not among theirs (R46). -/
@[simp] theorem decode_encode (i : Instr) : decode (encode i) = i := by
  cases i with
  | add a b cin => simp [encode, decode]
  | sub a b => simp [encode, decode]
  | mul a b => simp [encode, decode]
  | div a b => simp [encode, decode]

/-- On 19 bits or more, the table's numbering of a request word names that word (R49). -/
theorem decodeTableWord_toNat {nbits : Nat} (hbits : 19 ≤ nbits) (w : RequestWord) :
    decodeTableWord nbits w.toNat = some (decode w) := by
  have hmod : w.toNat % 2 ^ nbits = w.toNat :=
    Nat.mod_eq_of_lt (w.isLt.trans_le (Nat.pow_le_pow_right Nat.two_pos hbits))
  rw [decodeTableWord_eq_some_iff, hmod, BitVec.ofNat_toNat, BitVec.setWidth_eq]
  exact ⟨w.isLt, rfl⟩

/-- Settles O6: the fields come back one by one, and 24 bits are enough for the number of a request word. -/
theorem decodeOfEncodeIsIdentity : Obligations.DecodeOfEncodeIsIdentity := by
  unfold Obligations.DecodeOfEncodeIsIdentity
  intro i
  refine ⟨decode_encode i, ?number⟩
  case number => rw [decodeTableWord_toNat (by omega), decode_encode]

/-! ## Words of the spec's tables -/

/-- Settles O4: the operation field of each word selects its row of the decoder (R47), and the operands are the word's fields; the second
SUB word has `w[16]` set. -/
theorem specWordsDecode : Obligations.SpecWordsDecode := by
  unfold Obligations.SpecWordsDecode
  exact ⟨decode_add rfl, decode_add rfl, decode_sub rfl, decode_sub rfl, decode_mul rfl, decode_div rfl⟩

end Sys2Proof.Proofs.RoundTrip
end

section
/-! Power and the timing of the ports (spec/70_reset_and_hazards.md R111 to R115). Outputs are absent until a transaction completes on the
levels now driven, and a transaction completes exactly when every port is driven. -/

namespace Sys2Proof.Proofs.Hazards

open Sys2Proof Sys2Proof.Machine Sys2Proof.Proofs.Soundness Sys2Proof.Proofs.Sequence

/-! ## Power -/

/-- Settles O3: a transaction keeps only the build of the state before it (`transact_eq_unitOf`), and so does a power cycle. -/
theorem powerCycleForgetsHistory : Obligations.PowerCycleForgetsHistory := by
  unfold Obligations.PowerCycleForgetsHistory
  intro s w
  refine ⟨State.powerCycle_outputs s, ?sameState, _, transact_eq_unitOf _ w, ?outputs⟩
  case sameState => rw [transact_eq_unitOf, transact_eq_unitOf, State.powerCycle_config]
  case outputs => rw [State.powerCycle_config]

/-- Settles O2: reset has no outputs, so they are current, and current outputs report one condition at most. -/
theorem resetMeetsOutputInvariants : Obligations.ResetMeetsOutputInvariants := by
  unfold Obligations.ResetMeetsOutputInvariants
  have hcurrent : State.reset.outputsCurrent := outputsCurrent_of_none State.reset_outputs
  exact ⟨hcurrent, oneStatus_of_outputsCurrent hcurrent⟩

/-! ## Driven and undriven ports -/

/-- Some bit of the port is not at a defined level (R115). -/
def Undriven (i : Inputs) : Port → Prop
  | .op => i.op = none
  | .a => i.a = none
  | .b => i.b = none
  | .cin => i.cin = none

/-- The ports that are not driven are what keeps the levels from forming a request word. -/
theorem undriven_of_request_error {i : Inputs} {p : Port} (h : i.request = .error p) : Undriven i p := by
  obtain ⟨op, a, b, cin⟩ := i
  cases op with
  | none => cases h; rfl
  | some op =>
    cases a with
    | none => cases h; rfl
    | some a =>
      cases b with
      | none => cases h; rfl
      | some b =>
        cases cin with
        | none => cases h; rfl
        | some cin => cases h

/-- The levels form a request word exactly when every port is driven. -/
theorem exists_request_iff (i : Inputs) : (∃ w, i.request = .ok w) ↔ ∀ p, ¬ Undriven i p := by
  constructor
  · rintro ⟨w, hrequest⟩ p hp
    obtain rfl : i = Inputs.ofRequest w := (Inputs.request_eq_ok_iff i w).mp hrequest
    cases p <;> exact nomatch hp
  · intro hdriven
    cases hrequest : i.request with
    | ok w => exact ⟨w, rfl⟩
    | error p => exact absurd (undriven_of_request_error hrequest) (hdriven p)

theorem forall_not_undriven_iff (i : Inputs) :
    (∀ p, ¬ Undriven i p) ↔ i.op ≠ none ∧ i.a ≠ none ∧ i.b ≠ none ∧ i.cin ≠ none := by
  constructor
  · exact fun hdriven => ⟨hdriven .op, hdriven .a, hdriven .b, hdriven .cin⟩
  · rintro ⟨hop, ha, hb, hcin⟩ p
    cases p with
    | op => exact hop
    | a => exact ha
    | b => exact hb
    | cin => exact hcin

/-- A step completes exactly when the levels at the ports form a request word. -/
theorem exists_step_next_iff (s : State) : (∃ t, step s = .next t) ↔ ∃ w, s.inputs.request = .ok w := by
  constructor
  · rintro ⟨t, hstep⟩
    obtain ⟨w, hrequest, -⟩ := (step_eq_next_iff s t).mp hstep
    exact ⟨w, hrequest⟩
  · rintro ⟨w, hrequest⟩
    exact ⟨_, (step_eq_next_iff s _).mpr ⟨w, hrequest, rfl⟩⟩

/-- The only refusal of a step names a port that is not driven (R115, log 2). -/
theorem step_refused {s : State} {r : Refusal} (h : step s = .refused r) :
    ∃ p, r = .inputUndriven p ∧ Undriven s.inputs p := by
  rcases step_cases s with ⟨_, o, _, _, hnext⟩ | ⟨p, herror, hrefused⟩
  · exact nomatch hnext.symm.trans h
  · exact ⟨p, Host.Outcome.refused.inj (h.symm.trans hrefused), undriven_of_request_error herror⟩

/-- Settles O15: a step completes when the ports form a request word, which they do when no port is undriven; otherwise it names one. -/
theorem stepCompletesWhenInputsAreDriven : Obligations.StepCompletesWhenInputsAreDriven := by
  unfold Obligations.StepCompletesWhenInputsAreDriven
  refine fun s => ⟨?completes, fun r hrefused => ?refuses⟩
  case completes => rw [exists_step_next_iff, exists_request_iff, forall_not_undriven_iff]
  case refuses =>
    obtain ⟨p, rfl, hp⟩ := step_refused hrefused
    cases p with
    | op => exact .inl ⟨rfl, hp⟩
    | a => exact .inr (.inl ⟨rfl, hp⟩)
    | b => exact .inr (.inr (.inl ⟨rfl, hp⟩))
    | cin => exact .inr (.inr (.inr ⟨rfl, hp⟩))

/-! ## Changing and holding the inputs -/

/-- Settles O50: the two branches of driving the ports. -/
theorem inputChangeLosesOutputs : Obligations.InputChangeLosesOutputs := by
  unfold Obligations.InputChangeLosesOutputs
  exact fun _ _ => ⟨State.drive_changed, State.drive_same⟩

/-- A request that changes the inputs leaves nothing to sample (R114). -/
theorem present_outputs_of_ne {s : State} {w : RequestWord} (h : s.inputs ≠ Inputs.ofRequest w) :
    (s.present w).outputs = none := by
  rw [State.present, State.drive_changed h]

/-- A presented request that is held for `T_SETTLE` is a transaction (R16). -/
theorem step_present (s : State) (w : RequestWord) :
    step (s.present w) =
      .next { config := s.config, inputs := Inputs.ofRequest w, outputs := some (unitOf s.config w) } :=
  transact_eq_unitOf s w

/-- Settles O51: from `T_SETTLE` on the hold completes the transaction; before it the change of the inputs has left no outputs. -/
theorem holdingInputsSettlesOnUnit : Obligations.HoldingInputsSettlesOnUnit := by
  unfold Obligations.HoldingInputsSettlesOnUnit
  intro s w time hchange
  rcases State.hold_cases (s.present w) time with ⟨-, hhold⟩ | ⟨hearly, hhold⟩
  · exact ⟨_, hhold.trans (step_present s w), rfl, .inr rfl, fun _ => rfl⟩
  · exact ⟨_, hhold, State.present_inputs s w, .inl (present_outputs_of_ne hchange),
      fun hsettled => absurd hsettled (Nat.not_le.mpr hearly)⟩

end Sys2Proof.Proofs.Hazards
end
